-- ==== Sys2Proof/Word.lean ====
section
/-! DEFINITION. The machine word and the console byte (R6, R9, R10): arithmetic on a word is that of `BitVec 16`,
which is modulo 2^16 as R10 asks. -/

namespace Sys2Proof

/-- A 16-bit word (R9). -/
abbrev Word := BitVec 16

/-- An 8-bit console byte (R9). -/
abbrev Byte := BitVec 8

end Sys2Proof
end

