-- ==== Sys2Proof/Machine/Params.lean ====
section
/-! DEFINITION. The numbers of R7, each a named constant in one place. The spec supplies all of them from general
knowledge (its decisions D1 to D6; UNVERIFIED, log entry 2). -/

namespace Sys2Proof.Machine

/-- `PC_START`, the reset value of PC (R7, D5). -/
def pcStart : Word := 0x3000#16

/-- `KBSR_ADDR`, the keyboard status cell (R30, D4). -/
def kbsrAddr : Word := 0xFE00#16

/-- `KBDR_ADDR`, the keyboard data cell (R31, D4). -/
def kbdrAddr : Word := 0xFE02#16

/-- The last address: a fetch there ends the run (R66, D10). -/
def lastAddr : Word := 0xFFFF#16

/-- `COND_POS` (R22, D6). -/
def condPosBits : Word := 0x0001#16
/-- `COND_ZRO` (R22, D6). -/
def condZroBits : Word := 0x0002#16
/-- `COND_NEG` (R22, D6). -/
def condNegBits : Word := 0x0004#16

/-! The opcode numbers, bits [15:12] (R55, D1). -/
def opBr : BitVec 4 := 0x0#4
def opAdd : BitVec 4 := 0x1#4
def opLd : BitVec 4 := 0x2#4
def opSt : BitVec 4 := 0x3#4
def opJsr : BitVec 4 := 0x4#4
def opAnd : BitVec 4 := 0x5#4
def opLdr : BitVec 4 := 0x6#4
def opStr : BitVec 4 := 0x7#4
def opRti : BitVec 4 := 0x8#4
def opNot : BitVec 4 := 0x9#4
def opLdi : BitVec 4 := 0xA#4
def opSti : BitVec 4 := 0xB#4
def opJmp : BitVec 4 := 0xC#4
def opRes : BitVec 4 := 0xD#4
def opLea : BitVec 4 := 0xE#4
def opTrap : BitVec 4 := 0xF#4

/-! The lowest bit of each field of the formats (R48 to R54, R56, D2). Simp reads through a name to its number, so that a
law about one bit of a word needs no list of names. -/

/-- The opcode, [15:12] (R45). -/
@[simp] def posOpcode : Nat := 12
/-- DR, [11:9] (R48, R51, R52). -/
@[simp] def posDr : Nat := 9
/-- SR of a store, [11:9] (R51, R52). -/
@[simp] def posSr : Nat := 9
/-- SR1 of ADD and AND, [8:6] (R48, R49). -/
@[simp] def posSr1 : Nat := 6
/-- SR of NOT, [8:6] (R50). -/
@[simp] def posNotSr : Nat := 6
/-- BaseR, [8:6] (R52, R53). -/
@[simp] def posBase : Nat := 6
/-- SR2, [2:0] (R48). -/
@[simp] def posSr2 : Nat := 0
/-- The mode bit of ADD and AND, [5]: 1 is the immediate form (R48, R49). -/
@[simp] def posMode : Nat := 5
/-- imm5, [4:0] (R49). -/
@[simp] def posImm5 : Nat := 0
/-- The n bit of BR, [11] (R51). -/
@[simp] def posN : Nat := 11
/-- The z bit of BR, [10] (R51). -/
@[simp] def posZ : Nat := 10
/-- The p bit of BR, [9] (R51). -/
@[simp] def posP : Nat := 9
/-- PCoffset9, [8:0] (R51). -/
@[simp] def posOff9 : Nat := 0
/-- offset6, [5:0] (R52). -/
@[simp] def posOff6 : Nat := 0
/-- The mode bit of JSR, [11]: 0 is JSRR (R53). -/
@[simp] def posJsrMode : Nat := 11
/-- PCoffset11, [10:0] (R53). -/
@[simp] def posOff11 : Nat := 0
/-- trapvect8, [7:0] (R54). -/
@[simp] def posVector : Nat := 0

/-! The trap vectors, bits [7:0] of a TRAP (R55, R88, D3). -/
def vecGetc : Byte := 0x20#8
def vecOut : Byte := 0x21#8
def vecPuts : Byte := 0x22#8
def vecIn : Byte := 0x23#8
def vecPutsp : Byte := 0x24#8
def vecHalt : Byte := 0x25#8

/-- The vectors that name a service; the other 250 values name none (R59, R88). -/
def serviceVectors : List Byte := [vecGetc, vecOut, vecPuts, vecIn, vecPutsp, vecHalt]

/-- Does `v` name one of the six services (R88)? -/
def isServiceVector (v : Byte) : Bool := serviceVectors.contains v

end Sys2Proof.Machine
end

