-- ==== Sys2Proof/Syntax.lean ====
section
/-! DEFINITION. The instructions: one constructor for each of the 25 rows of spec/opcode_table.json, with the fields that
the decoder reads (R48 to R54). The bits the decoder ignores (R58) are no fields. -/

namespace Sys2Proof

/-- The eight general registers; a 3-bit register field names nothing else (R18, R19). -/
inductive Reg where
  | r0 | r1 | r2 | r3 | r4 | r5 | r6 | r7
deriving DecidableEq, Repr

/-- An instruction with its operands. Field order is the order of the row's fields in the table, high bits first. -/
inductive Instr where
  /-- BR: condition bits n, z, p and PCoffset9 (R75). -/
  | br (n z p : Bool) (off : BitVec 9)
  /-- ADD, register form: DR, SR1, SR2 (R69). -/
  | add (dr sr1 sr2 : Reg)
  /-- ADD, immediate form: DR, SR1, imm5 (R70). -/
  | addi (dr sr1 : Reg) (imm : BitVec 5)
  /-- LD: DR, PCoffset9 (R80). -/
  | ld (dr : Reg) (off : BitVec 9)
  /-- ST: SR, PCoffset9 (R84). -/
  | st (sr : Reg) (off : BitVec 9)
  /-- JSRR: BaseR (R78). -/
  | jsrr (base : Reg)
  /-- JSR: PCoffset11 (R77). -/
  | jsr (off : BitVec 11)
  /-- AND, register form: DR, SR1, SR2 (R71). -/
  | and (dr sr1 sr2 : Reg)
  /-- AND, immediate form: DR, SR1, imm5 (R72). -/
  | andi (dr sr1 : Reg) (imm : BitVec 5)
  /-- LDR: DR, BaseR, offset6 (R82). -/
  | ldr (dr base : Reg) (off : BitVec 6)
  /-- STR: SR, BaseR, offset6 (R86). -/
  | str (sr base : Reg) (off : BitVec 6)
  /-- RTI: no operands (R97). -/
  | rti
  /-- NOT: DR, SR (R73). -/
  | not (dr sr : Reg)
  /-- LDI: DR, PCoffset9 (R81). -/
  | ldi (dr : Reg) (off : BitVec 9)
  /-- STI: SR, PCoffset9 (R85). -/
  | sti (sr : Reg) (off : BitVec 9)
  /-- JMP, and RET when the base is R7: BaseR (R76). -/
  | jmp (base : Reg)
  /-- RES: no operands (R98). -/
  | res
  /-- LEA: DR, PCoffset9 (R83). -/
  | lea (dr : Reg) (off : BitVec 9)
  /-- TRAP with a vector; well-formed only with one that names no service, the other six rows being the services (R88). -/
  | trap (vector : Byte)
  /-- TRAP with the vector of GETC (R89). -/
  | trapGetc
  /-- TRAP with the vector of OUT (R90). -/
  | trapOut
  /-- TRAP with the vector of PUTS (R91). -/
  | trapPuts
  /-- TRAP with the vector of IN (R92). -/
  | trapIn
  /-- TRAP with the vector of PUTSP (R93). -/
  | trapPutsp
  /-- TRAP with the vector of HALT (R94). -/
  | trapHalt
deriving DecidableEq, Repr

/-- The row names of spec/opcode_table.json, in its order (R55). -/
inductive Mnemonic where
  | BR | ADD | ADDi | LD | ST | JSRR | JSR | AND | ANDi | LDR | STR | RTI | NOT | LDI | STI | JMP | RES | LEA
  | TRAP | TRAP_GETC | TRAP_OUT | TRAP_PUTS | TRAP_IN | TRAP_PUTSP | TRAP_HALT
deriving DecidableEq, Repr

/-- The table row an instruction belongs to. -/
def Instr.mnemonic : Instr → Mnemonic
  | .br _ _ _ _ => .BR
  | .add _ _ _ => .ADD
  | .addi _ _ _ => .ADDi
  | .ld _ _ => .LD
  | .st _ _ => .ST
  | .jsrr _ => .JSRR
  | .jsr _ => .JSR
  | .and _ _ _ => .AND
  | .andi _ _ _ => .ANDi
  | .ldr _ _ _ => .LDR
  | .str _ _ _ => .STR
  | .rti => .RTI
  | .not _ _ => .NOT
  | .ldi _ _ => .LDI
  | .sti _ _ => .STI
  | .jmp _ => .JMP
  | .res => .RES
  | .lea _ _ => .LEA
  | .trap _ => .TRAP
  | .trapGetc => .TRAP_GETC
  | .trapOut => .TRAP_OUT
  | .trapPuts => .TRAP_PUTS
  | .trapIn => .TRAP_IN
  | .trapPutsp => .TRAP_PUTSP
  | .trapHalt => .TRAP_HALT

end Sys2Proof
end

