-- ==== Sys2Proof/WellFormed.lean ====
section
/-! DEFINITION. Which instructions the decoder can produce. The operand types already bound every field, so one check is
left: `trap v` stands for the TRAP row, and where a service's row has more mask bits that row wins (R55). -/

namespace Sys2Proof

/-- The well-formedness check, constructor by constructor. -/
def Instr.wellFormed : Instr → Bool
  | .br _ _ _ _ => true
  | .add _ _ _ => true
  | .addi _ _ _ => true
  | .ld _ _ => true
  | .st _ _ => true
  | .jsrr _ => true
  | .jsr _ => true
  | .and _ _ _ => true
  | .andi _ _ _ => true
  | .ldr _ _ _ => true
  | .str _ _ _ => true
  | .rti => true
  | .not _ _ => true
  | .ldi _ _ => true
  | .sti _ _ => true
  | .jmp _ => true
  | .res => true
  | .lea _ _ => true
  | .trap v => !Machine.isServiceVector v
  | .trapGetc => true
  | .trapOut => true
  | .trapPuts => true
  | .trapIn => true
  | .trapPutsp => true
  | .trapHalt => true

/-- The instruction is one that a 16-bit word decodes to. -/
abbrev Instr.WellFormed (i : Instr) : Prop := i.wellFormed = true

end Sys2Proof
end

