-- ==== Sys2Proof/Decode.lean ====
section
/-! DEFINITION. The decoder and the encoder of the 16-bit instruction word (R45 to R60). Decoding is total: every word
has a meaning (R57), so the decoder rejects none. -/

namespace Sys2Proof

open Sys2Proof.Machine

/-- The register that a 3-bit field names (R19, R56). -/
def Reg.ofBits (b : BitVec 3) : Reg :=
  if b = 0#3 then .r0 else if b = 1#3 then .r1 else if b = 2#3 then .r2 else if b = 3#3 then .r3
  else if b = 4#3 then .r4 else if b = 5#3 then .r5 else if b = 6#3 then .r6 else .r7

/-- The 3-bit field of a register (R19, R56). -/
def Reg.toBits : Reg → BitVec 3
  | .r0 => 0#3 | .r1 => 1#3 | .r2 => 2#3 | .r3 => 3#3 | .r4 => 4#3 | .r5 => 5#3 | .r6 => 6#3 | .r7 => 7#3

/-- `w[lo+n-1 : lo]` (R9). -/
def bitsAt (w : Word) (lo n : Nat) : BitVec n := w.extractLsb' lo n

/-- The register named by the three bits of `w` from bit `lo` up (R56). -/
def regAt (w : Word) (lo : Nat) : Reg := Reg.ofBits (bitsAt w lo 3)

/-- The opcode, bits [15:12] (R45). -/
def opcodeOf (w : Word) : BitVec 4 := bitsAt w posOpcode 4

/-- The TRAP word by its vector, bits [7:0]; bits [11:8] are ignored (R54, R55, R88). -/
def decodeTrap (v : Byte) : Instr :=
  if v = vecGetc then .trapGetc
  else if v = vecOut then .trapOut
  else if v = vecPuts then .trapPuts
  else if v = vecIn then .trapIn
  else if v = vecPutsp then .trapPutsp
  else if v = vecHalt then .trapHalt
  else .trap v

/-- The instruction of a word (R45 to R58). No bit outside the formats' fields is looked at (R58). -/
def decode (w : Word) : Instr :=
  if opcodeOf w = opBr then .br (w.getLsbD posN) (w.getLsbD posZ) (w.getLsbD posP) (bitsAt w posOff9 9)
  else if opcodeOf w = opAdd then
    if w.getLsbD posMode then .addi (regAt w posDr) (regAt w posSr1) (bitsAt w posImm5 5)
    else .add (regAt w posDr) (regAt w posSr1) (regAt w posSr2)
  else if opcodeOf w = opLd then .ld (regAt w posDr) (bitsAt w posOff9 9)
  else if opcodeOf w = opSt then .st (regAt w posSr) (bitsAt w posOff9 9)
  else if opcodeOf w = opJsr then
    if w.getLsbD posJsrMode then .jsr (bitsAt w posOff11 11) else .jsrr (regAt w posBase)
  else if opcodeOf w = opAnd then
    if w.getLsbD posMode then .andi (regAt w posDr) (regAt w posSr1) (bitsAt w posImm5 5)
    else .and (regAt w posDr) (regAt w posSr1) (regAt w posSr2)
  else if opcodeOf w = opLdr then .ldr (regAt w posDr) (regAt w posBase) (bitsAt w posOff6 6)
  else if opcodeOf w = opStr then .str (regAt w posSr) (regAt w posBase) (bitsAt w posOff6 6)
  else if opcodeOf w = opRti then .rti
  else if opcodeOf w = opNot then .not (regAt w posDr) (regAt w posNotSr)
  else if opcodeOf w = opLdi then .ldi (regAt w posDr) (bitsAt w posOff9 9)
  else if opcodeOf w = opSti then .sti (regAt w posSr) (bitsAt w posOff9 9)
  else if opcodeOf w = opJmp then .jmp (regAt w posBase)
  else if opcodeOf w = opRes then .res
  else if opcodeOf w = opLea then .lea (regAt w posDr) (bitsAt w posOff9 9)
  else decodeTrap (bitsAt w posVector 8)

/-- What the decoder reads from an instruction of `nbits` bits `w`, numbered as spec/opcode_table.json numbers them. An
instruction is exactly one word (R45), so more than 16 bits are no instruction; bits above `nbits` are 0. -/
def decodeTableWord (nbits w : Nat) : Option Instr :=
  if nbits ≤ 16 then some (decode (BitVec.ofNat 16 (w % 2 ^ nbits))) else none

/-- The field `v` placed with its lowest bit at bit `lo` of the word (R9). -/
def field {n : Nat} (v : BitVec n) (lo : Nat) : Word := v.setWidth 16 <<< lo

/-- The `n` bits from bit `lo` up, all set: a field as a mask. -/
def span (lo n : Nat) : Word := field (BitVec.allOnes n) lo

/-- The opcode in its place, every other bit 0. -/
def opBits (op : BitVec 4) : Word := field op posOpcode

/-- The bits of a word that belong to a field of the instruction's format (R48 to R54). -/
def usedBits : Instr → Word
  | .br _ _ _ _ => span posOpcode 4 ||| span posN 1 ||| span posZ 1 ||| span posP 1 ||| span posOff9 9
  | .add _ _ _ => span posOpcode 4 ||| span posDr 3 ||| span posSr1 3 ||| span posMode 1 ||| span posSr2 3
  | .addi _ _ _ => span posOpcode 4 ||| span posDr 3 ||| span posSr1 3 ||| span posMode 1 ||| span posImm5 5
  | .ld _ _ => span posOpcode 4 ||| span posDr 3 ||| span posOff9 9
  | .st _ _ => span posOpcode 4 ||| span posSr 3 ||| span posOff9 9
  | .jsrr _ => span posOpcode 4 ||| span posJsrMode 1 ||| span posBase 3
  | .jsr _ => span posOpcode 4 ||| span posJsrMode 1 ||| span posOff11 11
  | .and _ _ _ => span posOpcode 4 ||| span posDr 3 ||| span posSr1 3 ||| span posMode 1 ||| span posSr2 3
  | .andi _ _ _ => span posOpcode 4 ||| span posDr 3 ||| span posSr1 3 ||| span posMode 1 ||| span posImm5 5
  | .ldr _ _ _ => span posOpcode 4 ||| span posDr 3 ||| span posBase 3 ||| span posOff6 6
  | .str _ _ _ => span posOpcode 4 ||| span posSr 3 ||| span posBase 3 ||| span posOff6 6
  | .rti => span posOpcode 4
  | .not _ _ => span posOpcode 4 ||| span posDr 3 ||| span posNotSr 3
  | .ldi _ _ => span posOpcode 4 ||| span posDr 3 ||| span posOff9 9
  | .sti _ _ => span posOpcode 4 ||| span posSr 3 ||| span posOff9 9
  | .jmp _ => span posOpcode 4 ||| span posBase 3
  | .res => span posOpcode 4
  | .lea _ _ => span posOpcode 4 ||| span posDr 3 ||| span posOff9 9
  | .trap _ => span posOpcode 4 ||| span posVector 8
  | .trapGetc => span posOpcode 4 ||| span posVector 8
  | .trapOut => span posOpcode 4 ||| span posVector 8
  | .trapPuts => span posOpcode 4 ||| span posVector 8
  | .trapIn => span posOpcode 4 ||| span posVector 8
  | .trapPutsp => span posOpcode 4 ||| span posVector 8
  | .trapHalt => span posOpcode 4 ||| span posVector 8

/-- The bits a format leaves to no field, which the decoder does not check (R58; RTI and RES carry nothing in [11:0], R54).
Laws/Decode.lean gives them as the spec prints them. -/
def ignoredBits (i : Instr) : Word := ~~~ usedBits i

/-- A TRAP word with the assembler's zeros in bits [11:8] (R54). -/
def encodeTrap (v : Byte) : Word := opBits opTrap ||| field v posVector

/-- The word the assembler writes for an instruction, ignored bits at their canonical values: ones in NOT's, zeros
elsewhere (R48 to R54). -/
def encode : Instr → Word
  | .br n z p off =>
    opBits opBr ||| field (BitVec.ofBool n) posN ||| field (BitVec.ofBool z) posZ ||| field (BitVec.ofBool p) posP |||
      field off posOff9
  | .add dr sr1 sr2 => opBits opAdd ||| field dr.toBits posDr ||| field sr1.toBits posSr1 ||| field sr2.toBits posSr2
  | .addi dr sr1 imm =>
    opBits opAdd ||| field dr.toBits posDr ||| field sr1.toBits posSr1 ||| field 1#1 posMode ||| field imm posImm5
  | .ld dr off => opBits opLd ||| field dr.toBits posDr ||| field off posOff9
  | .st sr off => opBits opSt ||| field sr.toBits posSr ||| field off posOff9
  | .jsrr base => opBits opJsr ||| field base.toBits posBase
  | .jsr off => opBits opJsr ||| field 1#1 posJsrMode ||| field off posOff11
  | .and dr sr1 sr2 => opBits opAnd ||| field dr.toBits posDr ||| field sr1.toBits posSr1 ||| field sr2.toBits posSr2
  | .andi dr sr1 imm =>
    opBits opAnd ||| field dr.toBits posDr ||| field sr1.toBits posSr1 ||| field 1#1 posMode ||| field imm posImm5
  | .ldr dr base off => opBits opLdr ||| field dr.toBits posDr ||| field base.toBits posBase ||| field off posOff6
  | .str sr base off => opBits opStr ||| field sr.toBits posSr ||| field base.toBits posBase ||| field off posOff6
  | .rti => opBits opRti
  | .not dr sr => opBits opNot ||| field dr.toBits posDr ||| field sr.toBits posNotSr ||| ignoredBits (.not dr sr)
  | .ldi dr off => opBits opLdi ||| field dr.toBits posDr ||| field off posOff9
  | .sti sr off => opBits opSti ||| field sr.toBits posSr ||| field off posOff9
  | .jmp base => opBits opJmp ||| field base.toBits posBase
  | .res => opBits opRes
  | .lea dr off => opBits opLea ||| field dr.toBits posDr ||| field off posOff9
  | .trap v => encodeTrap v
  | .trapGetc => encodeTrap vecGetc
  | .trapOut => encodeTrap vecOut
  | .trapPuts => encodeTrap vecPuts
  | .trapIn => encodeTrap vecIn
  | .trapPutsp => encodeTrap vecPutsp
  | .trapHalt => encodeTrap vecHalt

/-- A row of the opcode map: a word `w` belongs to the row when `w &&& mask = bits` (R55). -/
structure OpcodeRow where
  mnemonic : Mnemonic
  bits : Word
  mask : Word
deriving DecidableEq, Repr

/-- Does the word belong to the row (R55)? -/
def OpcodeRow.covers (row : OpcodeRow) (w : Word) : Bool := w &&& row.mask == row.bits

/-- A row that the opcode alone selects. -/
def OpcodeRow.byOpcode (mnemonic : Mnemonic) (op : BitVec 4) : OpcodeRow := ⟨mnemonic, opBits op, span posOpcode 4⟩

/-- A row that the opcode and the mode bit at `pos` select. -/
def OpcodeRow.byMode (mnemonic : Mnemonic) (op : BitVec 4) (pos : Nat) (mode : BitVec 1) : OpcodeRow :=
  ⟨mnemonic, opBits op ||| field mode pos, span posOpcode 4 ||| span pos 1⟩

/-- A row that the TRAP opcode and the vector select. -/
def OpcodeRow.byVector (mnemonic : Mnemonic) (v : Byte) : OpcodeRow :=
  ⟨mnemonic, encodeTrap v, span posOpcode 4 ||| span posVector 8⟩

/-- The opcode map of R55, rows in its order, made of the named numbers; Laws/Decode.lean gives its words as the spec
prints them. -/
def opcodeTable : List OpcodeRow :=
  [.byOpcode .BR opBr, .byMode .ADD opAdd posMode 0#1, .byMode .ADDi opAdd posMode 1#1, .byOpcode .LD opLd,
   .byOpcode .ST opSt, .byMode .JSRR opJsr posJsrMode 0#1, .byMode .JSR opJsr posJsrMode 1#1,
   .byMode .AND opAnd posMode 0#1, .byMode .ANDi opAnd posMode 1#1] ++
  [.byOpcode .LDR opLdr, .byOpcode .STR opStr, .byOpcode .RTI opRti, .byOpcode .NOT opNot, .byOpcode .LDI opLdi,
   .byOpcode .STI opSti, .byOpcode .JMP opJmp, .byOpcode .RES opRes, .byOpcode .LEA opLea] ++
  [.byOpcode .TRAP opTrap, .byVector .TRAP_GETC vecGetc, .byVector .TRAP_OUT vecOut, .byVector .TRAP_PUTS vecPuts,
   .byVector .TRAP_IN vecIn, .byVector .TRAP_PUTSP vecPutsp, .byVector .TRAP_HALT vecHalt]

end Sys2Proof
end

