-- ==== Sys2Proof/Config.lean ====
section
/-! DEFINITION. What the implementation or the host fixes and the spec leaves OPEN (R8), and the free value of R32.
Every constant here is opaque: no proof can see its value, so what is proved holds for every value, as R8 asks.
The numbers that the spec DECIDES (R7) are in `Sys2Proof/Machine/Params.lean`. -/

namespace Sys2Proof

/-- The two values of `KBSR_POLL_MODE` (R8, D12). -/
inductive PollMode where
  /-- A poll changes bit 15 of the status cell alone. -/
  | bit15Only
  /-- A poll writes the whole status cell. -/
  | wholeWord
deriving DecidableEq, Repr, Inhabited

/-- `KBSR_POLL_MODE` (R8, D12; log entry 3). -/
opaque Config.kbsrPollMode : PollMode

/-- `TRAP_LINKS_R7` (R8, D15; log entry 3). -/
opaque Config.trapLinksR7 : Bool

/-- `IN_PROMPT`, a finite byte string, possibly empty (R8, D18; log entry 3). -/
opaque Config.inPrompt : List Byte

/-- `HALT_NOTICE`, a finite byte string, possibly empty (R8, D19; log entry 3). -/
opaque Config.haltNotice : List Byte

/-- `POLL_TIMEOUT`, the bounded wait of the keyboard poll, which no rule depends on (R8, D14; log entry 3). -/
opaque Config.pollTimeout : Nat

/-- The host's `poll_key_available(timeout)` at the `n`-th poll of the run, where a byte is there to deliver: a draw,
so a free value (R32, D14; log entry 6). -/
opaque Config.pollKeyAvailable (timeout n : Nat) : Bool

end Sys2Proof
end

