-- ==== Sys2Proof/Machine/State.lean ====
section
/-! DEFINITION. The machine's state as plain data, the reasons a step can stop, and the state at reset (10_state.md,
R113). -/

namespace Sys2Proof.Machine

/-- COND, one of three mutually exclusive flags; the numeric patterns are `Cond.bits` in Flags.lean (R22, D6). -/
inductive Cond where
  | neg | zro | pos
deriving DecidableEq, Repr

/-- Why a run ended normally (R99). -/
inductive HaltReason where
  /-- TRAP HALT (R94). -/
  | haltTrap
  /-- A fetch at 0xFFFF (R66). -/
  | pcBound
deriving DecidableEq, Repr

/-- The fatal conditions with the values the spec has them record (R100, D24). -/
inductive Fatal where
  /-- E1: RTI or RES was executed; the opcode and the incremented PC (R97, R98). -/
  | invalidOpcode (opcode : BitVec 4) (pc : Word)
  /-- E2: a register index outside 0 to 9; no instruction can form one (R16, R19). -/
  | invalidRegister (index : Nat)
  /-- E3: a TRAP whose vector names no service; the vector and the incremented PC (R88). -/
  | invalidTrap (vector : Byte) (pc : Word)
deriving DecidableEq, Repr

/-- The run status (R26, D23). -/
inductive Status where
  | running
  | halted (why : HaltReason)
  | faulted (what : Fatal)
deriving DecidableEq, Repr

/-- The TRAP service whose step is not complete. `idle` is every step boundary; the others are the wait of GETC and IN
(R68), in which there is no step until a byte arrives, and the one-word micro-steps of PUTS and PUTSP (R91, R93, D29). The model's own field (DESIGN CHOICE, log entry 5). -/
inductive Service where
  | idle
  /-- GETC waits for a byte (R89). -/
  | getc
  /-- IN has written its prompt and waits for a byte (R92). -/
  | inChar
  /-- PUTS will read the word at `a` next (R91). -/
  | puts (a : Word)
  /-- PUTSP will read the word at `a` next (R93). -/
  | putsp (a : Word)
deriving DecidableEq, Repr

/-- The eight general registers (R18). -/
structure Regs where
  r0 : Word
  r1 : Word
  r2 : Word
  r3 : Word
  r4 : Word
  r5 : Word
  r6 : Word
  r7 : Word
deriving DecidableEq, Repr

/-- The 65536 word cells (R25), sparsely: the cells that do not hold 0x0000, by rising address. The spec has no byte
addressing (R34, R36), so a cell is one word (DESIGN CHOICE, log entry 7). -/
abbrev Memory := List (Nat × Word)

/-- The canonical form from address `lo` up: addresses strictly rise and lie in the address space, and no entry equals
what an unlisted address reads as, 0x0000 (R25). -/
def Memory.wfFrom (lo : Nat) : Memory → Bool
  | [] => true
  | c :: rest => decide (lo ≤ c.1) && decide (c.1 < 65536) && c.2 != 0#16 && Memory.wfFrom (c.1 + 1) rest

/-- The memory is in its canonical form. -/
def Memory.wf (m : Memory) : Bool := Memory.wfFrom 0 m

/-- Everything the spec gives the machine (R16 to R27), the console streams of R27 beside it, and the model's own
`service` and `polls`. -/
structure State where
  /-- R0 to R7 (R18). -/
  regs : Regs
  /-- The program counter; the incremented PC while an instruction's body runs (R20). -/
  pc : Word
  /-- The condition register (R22). -/
  cond : Cond
  /-- The memory, the two keyboard cells in it (R25, R30, R31). -/
  mem : Memory
  /-- The run status (R26). -/
  status : Status
  /-- `kbd_in`: the bytes the host has supplied and the core has not taken, the next one first (R27). -/
  kbdIn : List Byte
  /-- `con_out`: every byte written or echoed, in order (R27). -/
  conOut : List Byte
  /-- The step in progress, if any (the model's own; log entry 5). -/
  service : Service
  /-- The number of keyboard polls made, which indexes the free answers (the model's own; log entry 6). -/
  polls : Nat
deriving DecidableEq, Repr

/-- Why a state has no step. All are raised by `step` alone, never by an instruction's meaning. -/
inductive Fault where
  /-- The run has ended normally: a successful end, not an error (R99, R111). Safe: the spec gives such a state no step. -/
  | ended (why : HaltReason)
  /-- The run has ended with a fatal error (R100, R102). Safe: the spec gives such a state no step. -/
  | fatal (what : Fatal)
  /-- The machine waits in GETC or IN and the host has supplied no byte: no end and no error, the step completes once a byte
  arrives (R68, R111). Safe: the spec gives a waiting machine no next step. -/
  | waiting
deriving DecidableEq, Repr

/-- Why the model gives an instruction no meaning. -/
inductive Refusal where
  /-- Raised by `exec` for an instruction with no meaning yet; no arm does. Safe. -/
  | notModelled (mnemonic : String)
deriving DecidableEq, Repr

/-- The state the host constructs: PC, COND, memory and status at the values of R113, the general registers at ANY value
`g` (D7), and the host's console streams as they stand (R27). -/
def State.construct (g : Regs) (kbdIn conOut : List Byte) : State :=
  { regs := g, pc := pcStart, cond := .zro, mem := [], status := .running, kbdIn := kbdIn, conOut := conOut,
    service := .idle, polls := 0 }

/-- The one constructed state the interface names: general registers zero (DESIGN CHOICE, unsafe, log entry 1) and empty
console streams (DESIGN CHOICE, log entry 4). A claim about reset is made of `State.construct`, for every `g`. -/
def State.reset : State := State.construct ⟨0, 0, 0, 0, 0, 0, 0, 0⟩ [] []

end Sys2Proof.Machine
end

