-- ==== Sys2Proof/Machine/Flags.lean ====
section
/-! DEFINITION. The one flag computation and the one flag test: setcc (R17) and BR's condition (R75). -/

namespace Sys2Proof.Machine

/-- `setcc(v)`: the flag of the word actually written (R17). -/
def condOf (v : Word) : Cond :=
  if v = 0#16 then .zro else if v.msb then .neg else .pos

/-- The pattern COND holds, which only a host that inspects it sees (R22, D6). -/
def Cond.bits : Cond → Word
  | .neg => condNegBits
  | .zro => condZroBits
  | .pos => condPosBits

/-- BR's test: one of the requested flags is the live COND (R75). -/
def branchTaken (n z p : Bool) (c : Cond) : Bool :=
  match c with
  | .neg => n
  | .zro => z
  | .pos => p

end Sys2Proof.Machine
end

