-- ==== Sys2Proof/Machine/Operands.lean ====
section
/-! DEFINITION. The extensions and the operand forms: immediates, the three addressing modes' sums and the byte lanes of
the console boundary (R11, R36, R56, R87). Every sum is modulo 2^16 (R35). -/

namespace Sys2Proof.Machine

/-- `sext_n` to a word (R11). -/
def sext {n : Nat} (v : BitVec n) : Word := v.signExtend 16

/-- `zext_n` to a word (R11). -/
def zext {n : Nat} (v : BitVec n) : Word := v.setWidth 16

/-- The PC-relative address or target: the incremented PC plus a signed offset (R14, R87). -/
def pcRelative {n : Nat} (pc : Word) (off : BitVec n) : Word := pc + sext off

/-- The base + offset address (R87). -/
def baseOffset (base : Word) (off : BitVec 6) : Word := base + sext off

/-- Bits 7:0 of a word (R36). -/
def lowByte (w : Word) : Byte := w.extractLsb' 0 8

/-- Bits 15:8 of a word (R36). -/
def highByte (w : Word) : Byte := w.extractLsb' 8 8

end Sys2Proof.Machine
end

