-- ==== Sys2Proof/Machine/Ops.lean ====
section
/-! DEFINITION. The named operations over memory, registers, the console and the run status that every meaning is made
of (R12, R13, R17, R29, R33). -/

namespace Sys2Proof.Machine

/-! ### Memory cells -/

/-- The cell at address `a`; an unlisted cell holds 0x0000 (R25). -/
def Memory.lookup (a : Nat) : Memory → Word
  | [] => 0#16
  | c :: rest => if c.1 = a then c.2 else Memory.lookup a rest

/-- The memory with no entry for `a`, so that `a` reads as 0x0000. -/
def Memory.erase (a : Nat) : Memory → Memory
  | [] => []
  | c :: rest => if c.1 = a then Memory.erase a rest else c :: Memory.erase a rest

/-- The memory with the entry `(a, v)` put in front of the first higher address. -/
def Memory.insert (a : Nat) (v : Word) : Memory → Memory
  | [] => [(a, v)]
  | c :: rest => if a < c.1 then (a, v) :: c :: rest else c :: Memory.insert a v rest

/-- The plain read of one cell: `mem[a]` (R25). -/
def Memory.read (m : Memory) (a : Word) : Word := Memory.lookup a.toNat m

/-- The plain store of one cell: `mem[a] <- v` (R25). It keeps the canonical form. -/
def Memory.write (m : Memory) (a : Word) (v : Word) : Memory :=
  if v = 0#16 then Memory.erase a.toNat m else Memory.insert a.toNat v (Memory.erase a.toNat m)

/-! ### The register file -/

/-- The value of a general register (R18). -/
def Regs.get (g : Regs) : Reg → Word
  | .r0 => g.r0 | .r1 => g.r1 | .r2 => g.r2 | .r3 => g.r3 | .r4 => g.r4 | .r5 => g.r5 | .r6 => g.r6 | .r7 => g.r7

/-- The registers with one written; none is hardwired (R18). -/
def Regs.set (g : Regs) (r : Reg) (v : Word) : Regs :=
  match r with
  | .r0 => { g with r0 := v } | .r1 => { g with r1 := v } | .r2 => { g with r2 := v } | .r3 => { g with r3 := v }
  | .r4 => { g with r4 := v } | .r5 => { g with r5 := v } | .r6 => { g with r6 := v } | .r7 => { g with r7 := v }

/-- `x[r]` (R12). -/
def State.reg (s : State) (r : Reg) : Word := s.regs.get r

/-- The register file's write port, `set(register, word, update_flags)` (R17). -/
def State.setReg (s : State) (r : Reg) (v : Word) (updateFlags : Bool) : State :=
  { s with regs := s.regs.set r v, cond := if updateFlags then condOf v else s.cond }

/-- `pc <- t` (R12). -/
def State.setPc (s : State) (t : Word) : State := { s with pc := t }

/-! ### Memory accesses -/

/-- `PollKey()` and, where it answers true, the byte of the `ReadRawChar()` that follows. True needs a byte of `kbd_in`;
where there is one, the answer is the free value of R32 (log entry 6). -/
def State.polledKey (s : State) : Option Byte :=
  match s.kbdIn with
  | [] => none
  | k :: _ => if Config.pollKeyAvailable Config.pollTimeout s.polls then some k else none

/-- The status cell after a poll, by `KBSR_POLL_MODE` (R29, R30). -/
def statusAfterPoll (mode : PollMode) (found : Bool) (old : Word) : Word :=
  match mode, found with
  | .bit15Only, true => old ||| 0x8000#16
  | .bit15Only, false => old &&& 0x7FFF#16
  | .wholeWord, true => 0x8000#16
  | .wholeWord, false => 0x0000#16

/-- The memory after a poll that found the key `k`, or none, by `KBSR_POLL_MODE` (R29). -/
def Memory.afterPoll (m : Memory) (mode : PollMode) : Option Byte → Memory
  | some k =>
    let m' := m.write kbdrAddr (zext k)
    m'.write kbsrAddr (statusAfterPoll mode true (m'.read kbsrAddr))
  | none => m.write kbsrAddr (statusAfterPoll mode false (m.read kbsrAddr))

/-- The poll that a read of the status cell makes first (R29): a found key leaves `kbd_in` (R32). -/
def State.poll (s : State) : State :=
  { s with
    mem := s.mem.afterPoll Config.kbsrPollMode s.polledKey
    kbdIn := match s.polledKey with
      | some _ => s.kbdIn.tail
      | none => s.kbdIn
    polls := s.polls + 1 }

/-- The state after `MemRead(a, 1)`: a read of `KBSR_ADDR` polls, every other read changes nothing (R29, R39). -/
def State.afterRead (s : State) (a : Word) : State := if a = kbsrAddr then s.poll else s

/-- The word `MemRead(a, 1)` returns: the cell after the poll's update (R29). -/
def State.readValue (s : State) (a : Word) : Word := (s.afterRead a).mem.read a

/-- `MemWrite(a, 1, v)`: an unconditional store, the device cells included (R33). -/
def State.memWrite (s : State) (a : Word) (v : Word) : State := { s with mem := s.mem.write a v }

/-! ### The console -/

/-- `WriteChar(b)` (R13). -/
def State.writeChar (s : State) (b : Byte) : State := { s with conOut := s.conOut ++ [b] }

/-- `WriteChar` of each byte in turn. -/
def State.writeChars (s : State) (bs : List Byte) : State := { s with conOut := s.conOut ++ bs }

/-! ### The end of a run -/

/-- `halt(why)`: the run ends normally (R12, R99). -/
def State.halt (s : State) (why : HaltReason) : State := { s with status := .halted why }

/-- `raise` of a fatal condition, this machine's whole exception entry: the status records the condition and nothing else
changes (R12, R100, R101). No handler runs, nothing is vectored and nothing is saved (R102, R105). A return from an
exception does not exist on this machine (R102, R106). -/
def State.raise (s : State) (what : Fatal) : State := { s with status := .faulted what }

end Sys2Proof.Machine
end

