-- ==== Sys2Proof/Machine/Trap.lean ====
section
/-! DEFINITION. The trap dispatcher and its six services (44_trap.md). A service runs inside the TRAP's own step, changes
no PC, and needs no return (R95, R105, R106). Two kinds of service may need more than one micro-step (log entry 5): GETC
and IN wait for a byte (R68), PUTS and PUTSP take one word at a time (D29). -/

namespace Sys2Proof.Machine

/-- The link of TRAP: R7 takes the incremented PC when `TRAP_LINKS_R7`, without setcc (R88, D15). -/
def State.trapLink (s : State) : State :=
  s.setReg .r7 (if Config.trapLinksR7 then s.pc else s.reg .r7) false

/-- The end of a service: the next step fetches (R95). -/
def State.serviceDone (s : State) : State := { s with service := .idle }

/-- The step is not complete and goes on with `v` (R68, D29). -/
def State.serviceGoesOn (s : State) (v : Service) : State := { s with service := v }

/-- The code of a delivered byte goes to R0, zero-extended, with setcc (R89, R92, D16, D17). -/
def State.acceptKey (s : State) (k : Byte) : State := (s.setReg .r0 (zext k) true).serviceDone

/-- A byte was delivered, and `rest` is what is left of `kbd_in` (R32, R89). -/
def State.keyTaken (s : State) (rest : List Byte) : State := { s with kbdIn := rest }

/-- GETC's read: the next byte of `kbd_in`, or the wait for one (R89, D22). -/
def State.getcService (s : State) : State :=
  match s.kbdIn with
  | k :: rest => (s.keyTaken rest).acceptKey k
  | [] => s.serviceGoesOn .getc

/-- IN's read, after the prompt: as GETC, and the call echoes the byte (R92). -/
def State.inService (s : State) : State :=
  match s.kbdIn with
  | k :: rest => ((s.keyTaken rest).writeChar k).acceptKey k
  | [] => s.serviceGoesOn .inChar

/-- One word of PUTS, at `a`: a zero word ends it; otherwise its low byte is written (R91, D31). -/
def State.putsService (s : State) (a : Word) : State :=
  let w := s.readValue a
  if w = 0#16 then (s.afterRead a).serviceDone
  else ((s.afterRead a).writeChar (lowByte w)).serviceGoesOn (.puts (a + 1#16))

/-- One word of PUTSP, at `a`: a zero word ends it; otherwise the low byte is written, and then a zero high byte ends it
and any other is written (R93, D20). -/
def State.putspService (s : State) (a : Word) : State :=
  let w := s.readValue a
  if w = 0#16 then (s.afterRead a).serviceDone
  else if highByte w = 0#8 then ((s.afterRead a).writeChar (lowByte w)).serviceDone
  else (((s.afterRead a).writeChar (lowByte w)).writeChar (highByte w)).serviceGoesOn (.putsp (a + 1#16))

/-- HALT: the notice, then the end of the run (R94). -/
def State.haltService (s : State) : State := (s.writeChars Config.haltNotice).halt .haltTrap

/-- What the dispatcher does for the vector `v` once the link is made (R88). -/
def State.trapDispatch (s : State) (v : Byte) : State :=
  if v = vecGetc then s.getcService
  else if v = vecOut then s.writeChar (lowByte (s.reg .r0))
  else if v = vecPuts then s.putsService (s.reg .r0)
  else if v = vecIn then (s.writeChars Config.inPrompt).inService
  else if v = vecPutsp then s.putspService (s.reg .r0)
  else if v = vecHalt then s.haltService
  else s.raise (.invalidTrap v s.pc)

/-- TRAP with any vector (R88). -/
def execTrap (v : Byte) (s : State) : Host.Outcome State Fault Refusal :=
  .next (s.trapLink.trapDispatch v)

/-- TRAP GETC (R89). -/
def execTrapGetc (s : State) : Host.Outcome State Fault Refusal :=
  .next s.trapLink.getcService

/-- TRAP OUT (R90). -/
def execTrapOut (s : State) : Host.Outcome State Fault Refusal :=
  .next (s.trapLink.writeChar (lowByte (s.trapLink.reg .r0)))

/-- TRAP PUTS, its first word (R91). -/
def execTrapPuts (s : State) : Host.Outcome State Fault Refusal :=
  .next (s.trapLink.putsService (s.trapLink.reg .r0))

/-- TRAP IN (R92). -/
def execTrapIn (s : State) : Host.Outcome State Fault Refusal :=
  .next (s.trapLink.writeChars Config.inPrompt).inService

/-- TRAP PUTSP, its first word (R93). -/
def execTrapPutsp (s : State) : Host.Outcome State Fault Refusal :=
  .next (s.trapLink.putspService (s.trapLink.reg .r0))

/-- TRAP HALT (R94). -/
def execTrapHalt (s : State) : Host.Outcome State Fault Refusal :=
  .next s.trapLink.haltService

end Sys2Proof.Machine
end

