-- ==== Sys2Proof/Machine/Cycle.lean ====
section
/-! DEFINITION. The cycle around an instruction's body (40_cycle.md): fetch, bound check, increment, and the continuing of
a service whose step is not complete. -/

namespace Sys2Proof.Machine

/-- What the sequencer does with a state before any instruction's body runs. -/
inductive CyclePlan where
  /-- There is no step: the run has ended (R63) or the machine waits for input (R68). -/
  | stop (why : Fault)
  /-- The step is this next state and runs no instruction's body: the PC bound, or one more micro-step of a service. -/
  | settled (t : State)
  /-- The body of `i` runs in `t`, whose PC is incremented (R64). -/
  | dispatch (i : Instr) (t : State)
deriving DecidableEq, Repr

/-- Fetch, bound check, increment (R64 to R66): the word is read through `MemRead`, a fetch at 0xFFFF ends the run, and
otherwise PC is incremented before dispatch. -/
def State.fetchPlan (s : State) : CyclePlan :=
  if s.pc = lastAddr then .settled ((s.afterRead s.pc).halt .pcBound)
  else .dispatch (decode (s.readValue s.pc)) ((s.afterRead s.pc).setPc (s.pc + 1#16))

/-- The machine waits for input: inside GETC or IN with no byte supplied (R68). -/
def State.waits (s : State) : Bool := (s.service == .getc || s.service == .inChar) && s.kbdIn.isEmpty

/-- One more micro-step of the service in progress; with none, there is nothing to do (R68, D29). -/
def State.resume (s : State) : State :=
  match s.service with
  | .idle => s
  | .getc => s.getcService
  | .inChar => s.inService
  | .puts a => s.putsService a
  | .putsp a => s.putspService a

/-- The whole plan of a step: an ended run has none and neither has a waiting machine, a service in progress goes on,
anything else fetches (R63, R64, R68). -/
def State.cyclePlan (s : State) : CyclePlan :=
  match s.status with
  | .halted why => .stop (.ended why)
  | .faulted what => .stop (.fatal what)
  | .running =>
    if s.service = .idle then s.fetchPlan else if s.waits then .stop .waiting else .settled s.resume

/-- The state in which the word `w` is the next that a step fetches: it stands at PC, the run goes on and no service is in
progress (R64, R114). -/
def State.placeNextWord (s : State) (w : Word) : State :=
  { s with mem := s.mem.write s.pc w, status := .running, service := .idle }

end Sys2Proof.Machine
end

