-- ==== Sys2Proof/Machine/Control.lean ====
section
/-! DEFINITION. Control transfer (42_control.md). `s.pc` is the incremented PC; no rule here writes COND. -/

namespace Sys2Proof.Machine

/-- BR (R75). -/
def execBr (n z p : Bool) (off : BitVec 9) (s : State) : Host.Outcome State Fault Refusal :=
  .next (s.setPc (if branchTaken n z p s.cond then pcRelative s.pc off else s.pc))

/-- JMP, and RET with base R7 (R76). -/
def execJmp (base : Reg) (s : State) : Host.Outcome State Fault Refusal :=
  .next (s.setPc (s.reg base))

/-- JSR (R77). -/
def execJsr (off : BitVec 11) (s : State) : Host.Outcome State Fault Refusal :=
  .next ((s.setReg .r7 s.pc false).setPc (pcRelative s.pc off))

/-- JSRR: the link is written first, so a base of R7 reads the link (R78, 90_conflicts.md C2). -/
def execJsrr (base : Reg) (s : State) : Host.Outcome State Fault Refusal :=
  let linked := s.setReg .r7 s.pc false
  .next (linked.setPc (linked.reg base))

end Sys2Proof.Machine
end

