-- ==== Sys2Proof/Machine/LoadStore.lean ====
section
/-! DEFINITION. Loads, stores and address computation (43_load_store.md). `s.pc` is the incremented PC; every read goes
through `MemRead`, so a read of the keyboard status cell polls (R29). -/

namespace Sys2Proof.Machine

/-- Load the word at `a` into DR and set COND from it: the common tail of LD, LDI and LDR. -/
def State.loadInto (s : State) (dr : Reg) (a : Word) : State := (s.afterRead a).setReg dr (s.readValue a) true

/-- LD (R80). -/
def execLd (dr : Reg) (off : BitVec 9) (s : State) : Host.Outcome State Fault Refusal :=
  .next (s.loadInto dr (pcRelative s.pc off))

/-- LDI: the pointer read, then the operand read (R81). -/
def execLdi (dr : Reg) (off : BitVec 9) (s : State) : Host.Outcome State Fault Refusal :=
  let ea := pcRelative s.pc off
  .next ((s.afterRead ea).loadInto dr (s.readValue ea))

/-- LDR: the base is read before DR is written (R82). -/
def execLdr (dr base : Reg) (off : BitVec 6) (s : State) : Host.Outcome State Fault Refusal :=
  .next (s.loadInto dr (baseOffset (s.reg base) off))

/-- LEA: the address itself, with no memory access; it sets COND (R83, 90_conflicts.md C3). -/
def execLea (dr : Reg) (off : BitVec 9) (s : State) : Host.Outcome State Fault Refusal :=
  .next (s.setReg dr (pcRelative s.pc off) true)

/-- ST (R84). -/
def execSt (sr : Reg) (off : BitVec 9) (s : State) : Host.Outcome State Fault Refusal :=
  .next (s.memWrite (pcRelative s.pc off) (s.reg sr))

/-- STI: the pointer is read through `MemRead` (R85). -/
def execSti (sr : Reg) (off : BitVec 9) (s : State) : Host.Outcome State Fault Refusal :=
  let ea := pcRelative s.pc off
  .next ((s.afterRead ea).memWrite (s.readValue ea) (s.reg sr))

/-- STR (R86). -/
def execStr (sr base : Reg) (off : BitVec 6) (s : State) : Host.Outcome State Fault Refusal :=
  .next (s.memWrite (baseOffset (s.reg base) off) (s.reg sr))

end Sys2Proof.Machine
end

