-- ==== Sys2Proof/Machine/Operate.lean ====
section
/-! DEFINITION. The operate instructions (41_operate.md): add modulo 2^16, bitwise and, bitwise complement (R74). Sources
are read before DR is written, and COND comes from the result. -/

namespace Sys2Proof.Machine

/-- ADD, register form (R69). -/
def execAdd (dr sr1 sr2 : Reg) (s : State) : Host.Outcome State Fault Refusal :=
  .next (s.setReg dr (s.reg sr1 + s.reg sr2) true)

/-- ADD, immediate form (R70). -/
def execAddi (dr sr1 : Reg) (imm : BitVec 5) (s : State) : Host.Outcome State Fault Refusal :=
  .next (s.setReg dr (s.reg sr1 + sext imm) true)

/-- AND, register form (R71). -/
def execAnd (dr sr1 sr2 : Reg) (s : State) : Host.Outcome State Fault Refusal :=
  .next (s.setReg dr (s.reg sr1 &&& s.reg sr2) true)

/-- AND, immediate form (R72). -/
def execAndi (dr sr1 : Reg) (imm : BitVec 5) (s : State) : Host.Outcome State Fault Refusal :=
  .next (s.setReg dr (s.reg sr1 &&& sext imm) true)

/-- NOT (R73). -/
def execNot (dr sr : Reg) (s : State) : Host.Outcome State Fault Refusal :=
  .next (s.setReg dr (~~~(s.reg sr)) true)

end Sys2Proof.Machine
end

