-- ==== Sys2Proof/Machine/Reserved.lean ====
section
/-! DEFINITION. The reserved opcodes (45_reserved.md): executing one ends the run with InvalidOpcode, after the PC
increment (90_conflicts.md C1). -/

namespace Sys2Proof.Machine

/-- RTI (R97). -/
def execRti (s : State) : Host.Outcome State Fault Refusal :=
  .next (s.raise (.invalidOpcode opRti s.pc))

/-- RES (R98). -/
def execRes (s : State) : Host.Outcome State Fault Refusal :=
  .next (s.raise (.invalidOpcode opRes s.pc))

end Sys2Proof.Machine
end

