-- ==== Sys2Proof/Machine/Step.lean ====
section
/-! DEFINITION. One step of the machine (R64); it only calls the sequencer of Cycle.lean and `exec`. -/

namespace Sys2Proof.Machine

/-- `Step()` (R63, R64); a service that goes on makes one micro-step, and one that waits has no next step (R68, D29). -/
def step (s : State) : Host.Outcome State Fault Refusal :=
  match s.cyclePlan with
  | .stop why => .fault why
  | .settled t => .next t
  | .dispatch i t => exec i t

/-- `s` with the instruction of `nbits` bits `w` placed where the very next step fetches. An instruction is one word. -/
def State.withFetchWord (s : State) (nbits w : Nat) : State :=
  s.placeNextWord (BitVec.ofNat 16 (w % 2 ^ nbits))

end Sys2Proof.Machine
end

