-- ==== Sys2Proof/Machine/HostInterface.lean ====
section
/-! DEFINITION. What the host may do to the machine from outside (R109): load words before the run, supply input bytes
between steps and while GETC or IN waits, inspect at a step boundary. Construction is `State.construct`; `run()` is
`Host.Core.run`; abandoning a run is calling `step` no more. -/

namespace Sys2Proof.Machine

/-- The words copied into consecutive cells from `a` up (R109, R110). -/
def Memory.copyIn (m : Memory) (a : Word) : List Word → Memory
  | [] => m
  | w :: rest => Memory.copyIn (m.write a w) (a + 1#16) rest

/-- `load(origin, words)`: writes memory cells only and does not set PC (R109, R114). An image that would pass 0xFFFF is
not loaded: whether the loader rejects or truncates it the spec does not say (N32, U17; log entry 8). -/
def State.load (s : State) (origin : Word) (words : List Word) : Option State :=
  if origin.toNat + words.length ≤ 65536 then some { s with mem := s.mem.copyIn origin words } else none

/-- The host supplies further input bytes, after those it supplied before (R27, R109). -/
def State.supplyInput (s : State) (bytes : List Byte) : State := { s with kbdIn := s.kbdIn ++ bytes }

/-- The register file's read by index (R16): R0 to R7, PC, COND's pattern; any other index is an InvalidRegister access
(R100). The sentinel COUNT, index 10, is no register. -/
def State.readIndex (s : State) (index : Nat) : Except Fatal Word :=
  match index with
  | 0 => .ok s.regs.r0
  | 1 => .ok s.regs.r1
  | 2 => .ok s.regs.r2
  | 3 => .ok s.regs.r3
  | 4 => .ok s.regs.r4
  | 5 => .ok s.regs.r5
  | 6 => .ok s.regs.r6
  | 7 => .ok s.regs.r7
  | 8 => .ok s.pc
  | 9 => .ok s.cond.bits
  | n => .error (.invalidRegister n)

/-- The state is between steps, where alone the host sees it (R68, R109): no TRAP service is unfinished. -/
def State.atStepBoundary (s : State) : Bool := s.service == .idle

/-- What the host sees of `v`: nothing inside a TRAP's step (R68). -/
def State.observed {α : Type} (s : State) (v : α) : Option α := if s.atStepBoundary then some v else none

/-- Inspection of a register by index, at a step boundary; read-only (R68, R109; log entry 11). -/
def State.inspectRegister (s : State) (index : Nat) : Option (Except Fatal Word) := s.observed (s.readIndex index)

/-- Inspection of a memory cell, at a step boundary; a plain read that polls nothing (R68, R109, D28). -/
def State.inspectCell (s : State) (a : Word) : Option Word := s.observed (s.mem.read a)

end Sys2Proof.Machine
end

