-- ==== Sys2Proof/Safety.lean ====
section
/-! DEFINITION. What counts as a good state and as the end of a run, in the terms claims use. -/

namespace Sys2Proof.Machine

/-- The run has ended (R111). -/
def State.ended (s : State) : Bool := decide (s.status ≠ .running)

/-- A terminal status agrees with the rule that enters it: PC_BOUND only at 0xFFFF (R66), InvalidOpcode only with the
opcode of RTI or RES and the PC of the state (R97, R98, R101), InvalidTrap only with a vector that names no service (R88),
InvalidRegister never (R19). -/
def State.statusGood (s : State) : Bool :=
  match s.status with
  | .running => true
  | .halted .haltTrap => true
  | .halted .pcBound => s.pc == lastAddr
  | .faulted (.invalidOpcode op pc) => pc == s.pc && (op == opRti || op == opRes)
  | .faulted (.invalidTrap v pc) => pc == s.pc && !isServiceVector v
  | .faulted (.invalidRegister _) => false

/-- Only a running machine has a service in progress (R68, R111). -/
def State.serviceGood (s : State) : Bool := s.service == .idle || s.status == .running

/-- The invariant of the machine: memory in its canonical form, terminal status and service as their rules leave them. -/
abbrev State.Inv (s : State) : Prop := s.mem.wf = true ∧ s.statusGood = true ∧ s.serviceGood = true

end Sys2Proof.Machine
end

