-- ==== Sys2Proof/Certificates/Slice0/Obligations.lean ====
section
/-! DEFINITION. The statements for the provers, and the words they are made of (namespace `Claims`), which read the spec's
notation as numbers and do not call the model's own arithmetic where a number will do. `s.pc` is the incremented PC in
every statement about `exec` (R14). A statement that mentions a constant of Config or the poll's answer holds for every
value of it (R8, R32). The opcode numbers, field positions, vectors and addresses are the spec's own decisions D1 to D6
(R7, R55; log entry 2). -/

namespace Sys2Proof.Claims

open Sys2Proof Sys2Proof.Machine

/-! ### The spec's notation -/

/-- `w[lo+n-1 : lo]` as an unsigned number (R9). -/
def fieldNat (w : Word) (lo n : Nat) : Nat := w.toNat / 2 ^ lo % 2 ^ n

/-- The field as a value of its width. -/
def valField (w : Word) (lo n : Nat) : BitVec n := BitVec.ofNat n (fieldNat w lo n)

/-- One bit of the word. -/
def bitField (w : Word) (lo : Nat) : Bool := fieldNat w lo 1 == 1

/-- The register whose number stands in bits [lo+2 : lo] (R19, R56). -/
def regField (w : Word) (lo : Nat) : Reg :=
  match fieldNat w lo 3 with
  | 0 => .r0 | 1 => .r1 | 2 => .r2 | 3 => .r3 | 4 => .r4 | 5 => .r5 | 6 => .r6 | _ => .r7

/-- `sext_n(v)` by the formula of R11. -/
def sextNat (n v : Nat) : Nat :=
  if v / 2 ^ (n - 1) % 2 = 1 then v % 2 ^ n + (65536 - 2 ^ n) else v % 2 ^ n

/-- `a + sext_n(off)` modulo 2^16 (R10, R35). -/
def target {n : Nat} (a : Word) (off : BitVec n) : Word := BitVec.ofNat 16 (a.toNat + sextNat n off.toNat)

/-- `signed(w)` (R10). -/
def signed (w : Word) : Int := if 32768 ≤ w.toNat then (w.toNat : Int) - 65536 else w.toNat

/-- The flag of a result, read as signed (R74). -/
def flagOf (v : Word) : Cond := if signed v < 0 then .neg else if signed v = 0 then .zro else .pos

/-- `w[lo+7 : lo]` as a byte (R36). -/
def byteField (w : Word) (lo : Nat) : Byte := BitVec.ofNat 8 (w.toNat / 2 ^ lo)

/-- `zext_16` of a byte (R11). -/
def wordOfByte (b : Byte) : Word := BitVec.ofNat 16 b.toNat

/-- The row with this mask and these bits decodes to `f` of the word: field positions, and no other bit looked at. -/
def rowDecodes (bits mask : Word) (f : Word → Instr) : Prop := ∀ w : Word, w &&& mask = bits → decode w = f w

/-- The rows of R55 as the spec prints them: mnemonic, match, mask. -/
def printedRows : List OpcodeRow :=
  [⟨.BR, 0x0000#16, 0xF000#16⟩, ⟨.ADD, 0x1000#16, 0xF020#16⟩, ⟨.ADDi, 0x1020#16, 0xF020#16⟩,
   ⟨.LD, 0x2000#16, 0xF000#16⟩, ⟨.ST, 0x3000#16, 0xF000#16⟩, ⟨.JSRR, 0x4000#16, 0xF800#16⟩,
   ⟨.JSR, 0x4800#16, 0xF800#16⟩, ⟨.AND, 0x5000#16, 0xF020#16⟩, ⟨.ANDi, 0x5020#16, 0xF020#16⟩] ++
  [⟨.LDR, 0x6000#16, 0xF000#16⟩, ⟨.STR, 0x7000#16, 0xF000#16⟩, ⟨.RTI, 0x8000#16, 0xF000#16⟩,
   ⟨.NOT, 0x9000#16, 0xF000#16⟩, ⟨.LDI, 0xA000#16, 0xF000#16⟩, ⟨.STI, 0xB000#16, 0xF000#16⟩,
   ⟨.JMP, 0xC000#16, 0xF000#16⟩, ⟨.RES, 0xD000#16, 0xF000#16⟩, ⟨.LEA, 0xE000#16, 0xF000#16⟩] ++
  [⟨.TRAP, 0xF000#16, 0xF000#16⟩, ⟨.TRAP_GETC, 0xF020#16, 0xF0FF#16⟩, ⟨.TRAP_OUT, 0xF021#16, 0xF0FF#16⟩,
   ⟨.TRAP_PUTS, 0xF022#16, 0xF0FF#16⟩, ⟨.TRAP_IN, 0xF023#16, 0xF0FF#16⟩, ⟨.TRAP_PUTSP, 0xF024#16, 0xF0FF#16⟩,
   ⟨.TRAP_HALT, 0xF025#16, 0xF0FF#16⟩]

/-- The ignored bits of a row as R58 prints them: ADD and AND register [4:3], NOT [5:0], JMP [11:9] and [5:0], JSRR [10:9]
and [5:0], TRAP [11:8]; RTI and RES carry nothing in [11:0] (R54). -/
def printedIgnored (m : Mnemonic) : Word :=
  if m ∈ [.ADD, .AND] then 0x0018#16 else if m = .NOT then 0x003F#16 else if m = .JMP then 0x0E3F#16
  else if m = .JSRR then 0x063F#16 else if m ∈ [.RTI, .RES] then 0x0FFF#16
  else if m ∈ [.TRAP, .TRAP_GETC, .TRAP_OUT, .TRAP_PUTS, .TRAP_IN, .TRAP_PUTSP, .TRAP_HALT] then 0x0F00#16 else 0x0000#16

/-- How many bits of a mask are set (R55). -/
def maskBits (m : Word) : Nat := ((List.range 16).filter fun i => m.getLsbD i).length

/-! ### What stays as it was -/

/-- Every register but those named. -/
def keepsRegs (s t : State) (but : List Reg) : Prop := ∀ r, r ∉ but → t.reg r = s.reg r

/-- Every cell of memory, read as the model reads one cell. -/
def keepsMem (s t : State) : Prop := ∀ a, t.mem.read a = s.mem.read a

/-- The input, the output and the polls made. -/
def keepsConsole (s t : State) : Prop := t.kbdIn = s.kbdIn ∧ t.conOut = s.conOut ∧ t.polls = s.polls

/-- The run status and the service in progress. -/
def keepsRun (s t : State) : Prop := t.status = s.status ∧ t.service = s.service

/-- `v` went into DR and COND was set from it; no other register, not PC, not the run. -/
def dataResult (s t : State) (dr : Reg) (v : Word) : Prop :=
  t.reg dr = v ∧ t.cond = flagOf v ∧ keepsRegs s t [dr] ∧ t.pc = s.pc ∧ keepsRun s t

/-- A data result with no memory access and no console access. -/
def operateResult (s t : State) (dr : Reg) (v : Word) : Prop :=
  dataResult s t dr v ∧ keepsMem s t ∧ keepsConsole s t

/-- The memory, the input and the polls are those after the reads, which left the state `u`; nothing was written to the
console. -/
def readsOnly (s t u : State) : Prop :=
  (∀ a, t.mem.read a = u.mem.read a) ∧ t.kbdIn = u.kbdIn ∧ t.polls = u.polls ∧ t.conOut = s.conOut

/-- Every cell is kept, but for the two keyboard cells where a word in `reads` is the status cell. -/
def keepsMemBut (s t : State) (reads : List Word) : Prop :=
  ∀ a, (kbsrAddr ∈ reads → a ≠ kbsrAddr ∧ a ≠ kbdrAddr) → t.mem.read a = s.mem.read a

/-- PC took the target; no flag, memory cell, console stream or run status changed. -/
def controlResult (s t : State) (pc : Word) : Prop :=
  t.pc = pc ∧ t.cond = s.cond ∧ keepsMem s t ∧ keepsConsole s t ∧ keepsRun s t

/-- The word at `a` is `v`, every other cell is that of `u`, the state after the reads; no register, flag or PC changed,
nothing was written to the console. -/
def storeResult (s t u : State) (a v : Word) : Prop :=
  t.mem.read a = v ∧ (∀ b, b ≠ a → t.mem.read b = u.mem.read b) ∧ keepsRegs s t [] ∧ t.pc = s.pc ∧ t.cond = s.cond ∧
    t.kbdIn = u.kbdIn ∧ t.polls = u.polls ∧ t.conOut = s.conOut ∧ keepsRun s t

/-- What R7 holds after the link of a TRAP (R88, D15). -/
def linkedR7 (s : State) : Word := if Config.trapLinksR7 = true then s.pc else s.reg .r7

/-- The link of a TRAP was made, PC is kept, and so is every register but R7 and those named. -/
def trapFrame (s t : State) (but : List Reg) : Prop :=
  t.reg .r7 = linkedR7 s ∧ keepsRegs s t (.r7 :: but) ∧ t.pc = s.pc

/-- A byte `k` was accepted into R0 and COND, `rest` is left of the input and the service is over (R89, R92). -/
def keyAccepted (s t : State) (k : Byte) (rest : List Byte) : Prop :=
  t.reg .r0 = wordOfByte k ∧ t.cond = (if k = 0#8 then .zro else .pos) ∧ t.kbdIn = rest ∧ keepsMem s t ∧
    t.polls = s.polls ∧ t.status = s.status ∧ t.service = .idle

/-- No byte is there: the service `v` waits and nothing but that is recorded (R68). -/
def keyAwaited (s t : State) (v : Service) : Prop :=
  t.cond = s.cond ∧ t.kbdIn = [] ∧ keepsMem s t ∧ t.polls = s.polls ∧ t.status = s.status ∧ t.service = v

/-- One word of PUTS at `a` (R91). -/
def putsWord (s t : State) (a : Word) : Prop :=
  t.conOut = s.conOut ++ (if s.readValue a = 0#16 then [] else [byteField (s.readValue a) 0]) ∧
    t.service = (if s.readValue a = 0#16 then .idle else .puts (BitVec.ofNat 16 (a.toNat + 1))) ∧
    (∀ b, t.mem.read b = (s.afterRead a).mem.read b) ∧ keepsMemBut s t [a] ∧ t.kbdIn = (s.afterRead a).kbdIn ∧
    t.polls = (s.afterRead a).polls ∧ t.cond = s.cond ∧ t.pc = s.pc ∧ t.status = s.status

/-- One word of PUTSP at `a` (R93). -/
def putspWord (s t : State) (a : Word) : Prop :=
  t.conOut = s.conOut ++ (if s.readValue a = 0#16 then []
    else if byteField (s.readValue a) 8 = 0#8 then [byteField (s.readValue a) 0]
    else [byteField (s.readValue a) 0, byteField (s.readValue a) 8]) ∧
    t.service = (if byteField (s.readValue a) 8 = 0#8 then .idle else .putsp (BitVec.ofNat 16 (a.toNat + 1))) ∧
    (∀ b, t.mem.read b = (s.afterRead a).mem.read b) ∧ keepsMemBut s t [a] ∧ t.kbdIn = (s.afterRead a).kbdIn ∧
    t.polls = (s.afterRead a).polls ∧ t.cond = s.cond ∧ t.pc = s.pc ∧ t.status = s.status

/-! ### What each instruction reads, stores and writes, for the statements about all of them -/

/-- The addresses the body of the instruction reads through MemRead, in order (R34); of PUTS and PUTSP the first. -/
def readsOf (i : Instr) (s : State) : List Word :=
  match i with
  | .ld _ off => [pcRelative s.pc off]
  | .ldi _ off => [pcRelative s.pc off, s.readValue (pcRelative s.pc off)]
  | .ldr _ base off => [baseOffset (s.reg base) off]
  | .sti _ off => [pcRelative s.pc off]
  | .trapPuts => [s.reg .r0]
  | .trapPutsp => [s.reg .r0]
  | _ => []

/-- The address the body stores to and the register it stores (R34). -/
def storeOf (i : Instr) (s : State) : Option (Word × Reg) :=
  match i with
  | .st sr off => some (pcRelative s.pc off, sr)
  | .sti sr off => some (s.readValue (pcRelative s.pc off), sr)
  | .str sr base off => some (baseOffset (s.reg base) off, sr)
  | _ => none

/-- The register whose value COND is set from (R23); GETC and IN set it when they have a byte. -/
def condSource (i : Instr) (s : State) : Option Reg :=
  match i with
  | .add dr _ _ => some dr
  | .addi dr _ _ => some dr
  | .and dr _ _ => some dr
  | .andi dr _ _ => some dr
  | .not dr _ => some dr
  | .ld dr _ => some dr
  | .ldi dr _ => some dr
  | .ldr dr _ _ => some dr
  | .lea dr _ => some dr
  | .trapGetc => if s.kbdIn = [] then none else some .r0
  | .trapIn => if s.kbdIn = [] then none else some .r0
  | _ => none

/-- PC after the body (R21). -/
def pcAfter (i : Instr) (s : State) : Word :=
  match i with
  | .br n z p off =>
    if (n = true ∧ s.cond = .neg) ∨ (z = true ∧ s.cond = .zro) ∨ (p = true ∧ s.cond = .pos) then target s.pc off else s.pc
  | .jmp base => s.reg base
  | .jsr off => target s.pc off
  | .jsrr base => if base = .r7 then s.pc else s.reg base
  | _ => s.pc

/-- The run status after the body of a well-formed instruction (R26). -/
def statusAfter (i : Instr) (s : State) : Status :=
  match i with
  | .trapHalt => .halted .haltTrap
  | .rti => .faulted (.invalidOpcode 0x8#4 s.pc)
  | .res => .faulted (.invalidOpcode 0xD#4 s.pc)
  | .trap v => .faulted (.invalidTrap v s.pc)
  | _ => s.status

/-- The step from `s` neither reads the keyboard status cell nor takes a byte of input in GETC or IN. -/
def readsNoInput (s : State) : Prop :=
  match s.service with
  | .idle => s.pc ≠ kbsrAddr ∧ (s.pc = 0xFFFF#16 ∨ (decode (s.mem.read s.pc) ≠ .trapGetc ∧
      decode (s.mem.read s.pc) ≠ .trapIn ∧ kbsrAddr ∉ readsOf (decode (s.mem.read s.pc)) (s.setPc (s.pc + 1#16))))
  | .getc => False
  | .inChar => False
  | .puts a => a ≠ kbsrAddr
  | .putsp a => a ≠ kbsrAddr

end Sys2Proof.Claims

section
open Sys2Proof Sys2Proof.Machine

/-! ### Encoding -/

/-- R45 to R58, tier 3: no field of an instruction is lost or moved. -/
def Obligations.DecodeAfterEncodeIsIdentity : Prop := ∀ i : Instr, i.WellFormed → decode (encode i) = i

/-- R57: decoding is total and yields a well-formed instruction whose word is `w` but for ignored bits, so its opcode is
`w[15:12]`; InvalidOpcode comes only from RTI and RES. -/
def Obligations.EveryWordDecodes : Prop :=
  (∀ w : Word, (decode w).WellFormed ∧
    (∀ k, (ignoredBits (decode w)).getLsbD k = false → (encode (decode w)).getLsbD k = w.getLsbD k) ∧
    Claims.fieldNat (encode (decode w)) 12 4 = Claims.fieldNat w 12 4) ∧
  ∀ (i : Instr) (s t : State) (op : BitVec 4) (p : Word), s.status = .running → exec i s = .next t →
    t.status = .faulted (.invalidOpcode op p) → i = .rti ∨ i = .res

/-- R55: the opcode map is the printed one, and the row that covers the word, the one with most mask bits where several do, is the row of what it decodes to. -/
def Obligations.DecoderFollowsOpcodeMap : Prop :=
  opcodeTable = Claims.printedRows ∧
  ∀ w : Word, (∃ row ∈ opcodeTable, row.covers w = true ∧ row.mnemonic = (decode w).mnemonic) ∧
    ∀ row ∈ opcodeTable, row.covers w = true →
      (∀ other ∈ opcodeTable, other.covers w = true → Claims.maskBits other.mask ≤ Claims.maskBits row.mask) →
      row.mnemonic = (decode w).mnemonic

/-- R58, decision D9: the bits of no field are the ones the rule lists, and two words that agree on every other bit decode
alike. -/
def Obligations.IgnoredBitsDoNotMatter : Prop :=
  (∀ i : Instr, ignoredBits i = Claims.printedIgnored i.mnemonic) ∧
  ∀ w w' : Word, (∀ k, (ignoredBits (decode w)).getLsbD k = false → w'.getLsbD k = w.getLsbD k) → decode w' = decode w

/-- Words of R62, R69 to R94 and 95_test_vectors.md decode to the instructions they stand for. -/
def Obligations.SampleWordsDecodeAsWritten : Prop :=
  decode 0x1042#16 = .add .r0 .r1 .r2 ∧ decode 0x103F#16 = .addi .r0 .r0 (-1) ∧ decode 0x0405#16 = .br false true false 5 ∧
  decode 0xC1C0#16 = .jmp .r7 ∧ decode 0x480A#16 = .jsr 10 ∧ decode 0x40C0#16 = .jsrr .r3 ∧
  decode 0x64FF#16 = .ldr .r2 .r3 (-1) ∧ decode 0x3801#16 = .st .r4 1 ∧ decode 0x907F#16 = .not .r0 .r1 ∧
  decode 0xF022#16 = .trapPuts ∧ decode 0xF026#16 = .trap 0x26 ∧ decode 0xD123#16 = .res ∧ decode 0x8000#16 = .rti

/-- R11: the two extensions by the rule's formulas; R87's sums over them. -/
def Obligations.ExtensionsFollowTheirFormulas : Prop :=
  (∀ (n : Nat) (v : BitVec n), 0 < n → n ≤ 16 → (sext v).toNat = Claims.sextNat n v.toNat ∧ (zext v).toNat = v.toNat) ∧
  (∀ (pc : Word) (off : BitVec 9), pcRelative pc off = Claims.target pc off) ∧
  (∀ (pc : Word) (off : BitVec 11), pcRelative pc off = Claims.target pc off) ∧
  ∀ (base : Word) (off : BitVec 6), baseOffset base off = Claims.target base off

/-! ### The cycle -/

/-- R64: fetch through MemRead, bound check, increment, dispatch of the decoded instruction. Where PC is not the
keyboard status cell the fetch reads `mem[pc]` and changes nothing. -/
def Obligations.StepRunsTheDecodedInstruction : Prop :=
  ∀ s : State, s.status = .running → s.service = .idle →
    (s.pc = 0xFFFF#16 → step s = .next { s.afterRead s.pc with status := .halted .pcBound }) ∧
    (s.pc ≠ 0xFFFF#16 → (decode (s.readValue s.pc)).WellFormed ∧
      step s = exec (decode (s.readValue s.pc)) { s.afterRead s.pc with pc := BitVec.ofNat 16 (s.pc.toNat + 1) }) ∧
    (s.pc ≠ kbsrAddr → s.readValue s.pc = s.mem.read s.pc ∧ s.afterRead s.pc = s)

/-- The model's micro-steps (log entry 5; R68, D29): while a service is in progress and does not wait for a byte, a step
goes on with it, fetches nothing, and keeps PC and the run status. -/
def Obligations.ServiceInProgressGoesOn : Prop :=
  ∀ s : State, s.status = .running → s.service ≠ .idle → s.waits = false →
    ∃ t, step s = .next t ∧ t = s.resume ∧ t.pc = s.pc ∧ t.status = .running

/-- R66, decision D10: the bound check fires exactly at a fetch from 0xFFFF, whatever word stands there, and changes the
status alone. -/
def Obligations.PcBoundEndsTheRunAtTheTop : Prop :=
  (∀ s : State, s.status = .running → s.service = .idle →
    ((∃ t, step s = .next t ∧ t.status = .halted .pcBound) ↔ s.pc = 0xFFFF#16)) ∧
  ∀ s : State, s.status = .running → s.service = .idle → s.pc = 0xFFFF#16 →
    ∃ t, step s = .next t ∧ t.status = .halted .pcBound ∧ t.pc = 0xFFFF#16 ∧ Claims.keepsRegs s t [] ∧ t.cond = s.cond ∧
      Claims.keepsMem s t ∧ Claims.keepsConsole s t ∧ t.service = .idle

/-- Only a RUNNING state has a step, and a HALTED or FAULTED one has none (R63, R99, R102). That the step of an ended state
is the fault `ended` or `fatal` that names its end is the model's choice (log entry 10). -/
def Obligations.EndedStatesHaveNoStep : Prop :=
  (∀ s t : State, step s = .next t → s.status = .running) ∧
  (∀ (s : State) (why : HaltReason), s.status = .halted why → step s = .fault (.ended why)) ∧
  ∀ (s : State) (what : Fatal), s.status = .faulted what → step s = .fault (.fatal what)

/-- A running state has a next state unless it waits for input in GETC or IN (R64, R67, R68): no instruction and no other
service stops the model. A wait stands in the field `service`, the model's own (log entry 5). -/
def Obligations.RunningStatesHaveAStep : Prop :=
  ∀ s : State, s.status = .running →
    ((∃ t, step s = .next t) ↔ ¬ ((s.service = .getc ∨ s.service = .inChar) ∧ s.kbdIn = []))

/-- R21: the events that change PC, and what each makes it. -/
def Obligations.PcChangesOnlyAsListed : Prop :=
  (∀ (i : Instr) (s t : State), exec i s = .next t → t.pc = Claims.pcAfter i s) ∧
  (∀ s : State, s.status = .running → s.service = .idle → s.pc ≠ 0xFFFF#16 →
    ∃ i u, u.pc = BitVec.ofNat 16 (s.pc.toNat + 1) ∧ step s = exec i u) ∧
  (∀ s t : State, s.service = .idle → s.pc = 0xFFFF#16 → step s = .next t → t.pc = s.pc ∧ t.status = .halted .pcBound) ∧
  (∀ s t : State, s.service ≠ .idle → step s = .next t → t.pc = s.pc) ∧
  ∀ (g : Regs) (k o : List Byte), (State.construct g k o).pc = 0x3000#16

/-- R23, decision D16 for GETC and IN: the instructions that write COND, always from the word they write, and that BR
alone reads it. -/
def Obligations.CondChangesOnlyAsListed : Prop :=
  (∀ i : Instr, i.WellFormed → ∀ s t : State, exec i s = .next t →
    t.cond = match Claims.condSource i s with
      | some r => Claims.flagOf (t.reg r)
      | none => s.cond) ∧
  (∀ s t : State, s.service = .idle → s.pc = 0xFFFF#16 → step s = .next t → t.cond = s.cond) ∧
  (∀ s t : State, s.service ≠ .idle → step s = .next t →
    t.cond = if s.kbdIn ≠ [] ∧ (s.service = .getc ∨ s.service = .inChar) then Claims.flagOf (t.reg .r0) else s.cond) ∧
  ∀ (i : Instr) (s t : State) (c : Cond), (∀ n z p off, i ≠ .br n z p off) → exec i s = .next t →
    ∃ u, exec i { s with cond := c } = .next u ∧ u = { t with cond := u.cond } ∧
      (u.cond = t.cond ∨ (t.cond = s.cond ∧ u.cond = c))

/-- R26: what enters each status, and that no step leaves a terminal one. -/
def Obligations.StatusChangesOnlyAsListed : Prop :=
  (∀ i : Instr, i.WellFormed → ∀ s t : State, exec i s = .next t → t.status = Claims.statusAfter i s) ∧
  (∀ s t : State, s.service = .idle → s.pc = 0xFFFF#16 → step s = .next t → t.status = .halted .pcBound) ∧
  (∀ s t : State, s.service ≠ .idle → step s = .next t → t.status = .running) ∧
  (∀ s t : State, step s = .next t → s.status = .running) ∧
  ∀ (g : Regs) (k o : List Byte), (State.construct g k o).status = .running

/-! ### Rules about all instructions -/

/-- R29, R33, R34: the body of an instruction changes no cell but the one it stores to and, where it reads the keyboard
status cell, the two keyboard cells; the cell it stores to holds the stored register's value. -/
def Obligations.OnlyStoredAndPolledCellsChange : Prop :=
  ∀ i : Instr, i.WellFormed → ∀ s t : State, exec i s = .next t → ∀ a : Word,
    (∀ sr, Claims.storeOf i s = some (a, sr) → t.mem.read a = s.reg sr) ∧
    ((∀ sr, Claims.storeOf i s ≠ some (a, sr)) → (kbsrAddr ∈ Claims.readsOf i s → a ≠ kbsrAddr ∧ a ≠ kbdrAddr) →
      t.mem.read a = s.mem.read a)

/-- R27: a step only appends to `con_out` and takes bytes only from the front of `kbd_in`. -/
def Obligations.ConsoleStreamsOnlyMoveForward : Prop :=
  ∀ s t : State, step s = .next t → s.conOut <+: t.conOut ∧ t.kbdIn <:+ s.kbdIn

/-- Tier 3, the machine's invariant: memory in canonical form, a terminal status that agrees with the rule that enters it
(R19, R66, R88, R97, R98, R101), a service (the model's own field, log entry 5) in progress only while the run goes on. -/
def Obligations.InvariantIsKeptByEveryStep : Prop := ∀ s t : State, s.Inv → step s = .next t → t.Inv

/-- The invariant holds at construction, whatever the registers and the console hold, and so at reset. -/
def Obligations.InvariantHoldsAtConstruction : Prop :=
  (∀ (g : Regs) (k o : List Byte), (State.construct g k o).Inv) ∧ State.reset.Inv

/-- R101, which the spec marks as derived from R64 and R100: a fatal error changes the status and, for InvalidTrap with
TRAP_LINKS_R7, R7; it records the incremented PC. -/
def Obligations.FatalErrorsArePrecise : Prop :=
  ∀ i : Instr, i.WellFormed → ∀ (s t : State) (what : Fatal), s.status = .running → exec i s = .next t →
    t.status = .faulted what →
    t = { s with status := .faulted what, regs := t.regs } ∧ Claims.keepsRegs s t [.r7] ∧
    ((∃ op, what = .invalidOpcode op s.pc ∧ t.reg .r7 = s.reg .r7) ∨
      ∃ v, what = .invalidTrap v s.pc ∧ t.reg .r7 = Claims.linkedR7 s)

/-- R118, tier 3: a step that does not read the status cell and is no GETC or IN observes nothing of the input: with any
other input it does the same, and it leaves the input as it was. -/
def Obligations.UnreadInputIsNotObserved : Prop :=
  ∀ (s : State) (other : List Byte), s.status = .running → Claims.readsNoInput s →
    ∃ t, step s = .next t ∧ t.kbdIn = s.kbdIn ∧ step { s with kbdIn := other } = .next { t with kbdIn := other }

/-- R43, which the spec marks as derived from R29 and R41: where an instruction stores to the very next word, the next
step runs what was stored. -/
def Obligations.StoredWordIsFetchedNext : Prop :=
  ∀ (i : Instr) (s t : State) (sr : Reg), Claims.storeOf i s = some (s.pc, sr) → s.status = .running →
    s.service = .idle → s.pc ≠ 0xFFFF#16 → s.pc ≠ kbsrAddr → exec i s = .next t →
    step t = exec (decode (s.reg sr)) { t with pc := BitVec.ofNat 16 (s.pc.toNat + 1) }

/-! ### State, register file, memory interface, host -/

/-- R113: the values the spec gives at construction, for every value of the registers and of the console streams. -/
def Obligations.ConstructionHoldsTheResetValues : Prop :=
  (∀ (g : Regs) (k o : List Byte), (State.construct g k o).pc = 0x3000#16 ∧ (State.construct g k o).cond = .zro ∧
    (∀ a : Word, (State.construct g k o).mem.read a = 0#16) ∧ (State.construct g k o).status = .running ∧
    (∀ r, (State.construct g k o).reg r = g.get r) ∧ (State.construct g k o).kbdIn = k ∧
    (State.construct g k o).conOut = o) ∧
  ∃ g k o, State.reset = State.construct g k o

/-- R17: the write port writes the word and, when asked, COND from it; it writes nothing else. -/
def Obligations.RegisterWritePort : Prop :=
  ∀ (s : State) (r : Reg) (v : Word) (u : Bool),
    (s.setReg r v u).reg r = v ∧ Claims.keepsRegs s (s.setReg r v u) [r] ∧
    (s.setReg r v u).cond = (if u = true then (if v = 0#16 then .zro else if v.getLsbD 15 = true then .neg else .pos)
      else s.cond) ∧
    (s.setReg r v true).cond = Claims.flagOf v ∧
    s.setReg r v u = { s with regs := (s.setReg r v u).regs, cond := (s.setReg r v u).cond }

/-- R16, R68, R109: at a step boundary the host sees ten identities in their order, COND by its pattern (R22), and every
memory cell; inside a TRAP's step it sees nothing. That any other index answers the error InvalidRegister and leaves the
run going is the model's choice (log entry 11), and that `service` names the boundaries is log entry 5. -/
def Obligations.RegisterFileHasTenIdentities : Prop :=
  (∀ s : State, s.service = .idle →
    s.inspectRegister 0 = some (.ok (s.reg .r0)) ∧ s.inspectRegister 1 = some (.ok (s.reg .r1)) ∧
    s.inspectRegister 2 = some (.ok (s.reg .r2)) ∧ s.inspectRegister 3 = some (.ok (s.reg .r3)) ∧
    s.inspectRegister 4 = some (.ok (s.reg .r4)) ∧ s.inspectRegister 5 = some (.ok (s.reg .r5)) ∧
    s.inspectRegister 6 = some (.ok (s.reg .r6)) ∧ s.inspectRegister 7 = some (.ok (s.reg .r7)) ∧
    s.inspectRegister 8 = some (.ok s.pc) ∧
    s.inspectRegister 9 =
      some (.ok (match s.cond with | .pos => 0x0001#16 | .zro => 0x0002#16 | .neg => 0x0004#16)) ∧
    (∀ n, 10 ≤ n → s.inspectRegister n = some (.error (.invalidRegister n))) ∧
    ∀ a, s.inspectCell a = some (s.mem.read a)) ∧
  ∀ s : State, s.service ≠ .idle → (∀ n, s.inspectRegister n = none) ∧ ∀ a, s.inspectCell a = none

/-- R29, decisions D12 and D13: a read of the status cell polls, by the host's free answer and KBSR_POLL_MODE, and
returns the updated cell; a read of any other cell returns it and changes nothing. -/
def Obligations.MemReadPollsAtTheStatusCell : Prop :=
  (∀ (s : State) (a : Word), a ≠ kbsrAddr → s.readValue a = s.mem.read a ∧ s.afterRead a = s) ∧
  ∀ s : State, s.readValue kbsrAddr = (s.afterRead kbsrAddr).mem.read kbsrAddr ∧
    Claims.keepsRegs s (s.afterRead kbsrAddr) [] ∧ (s.afterRead kbsrAddr).pc = s.pc ∧
    (s.afterRead kbsrAddr).cond = s.cond ∧ Claims.keepsRun s (s.afterRead kbsrAddr) ∧
    (s.afterRead kbsrAddr).conOut = s.conOut ∧
    (∀ a, a ≠ kbsrAddr → a ≠ kbdrAddr → (s.afterRead kbsrAddr).mem.read a = s.mem.read a) ∧
    if s.kbdIn ≠ [] ∧ Config.pollKeyAvailable Config.pollTimeout s.polls = true then
      (∃ k rest, s.kbdIn = k :: rest ∧ (s.afterRead kbsrAddr).kbdIn = rest ∧
        (s.afterRead kbsrAddr).mem.read kbdrAddr = Claims.wordOfByte k) ∧
      (s.afterRead kbsrAddr).mem.read kbsrAddr =
        (if Config.kbsrPollMode = .bit15Only then s.mem.read kbsrAddr ||| 0x8000#16 else 0x8000#16)
    else
      (s.afterRead kbsrAddr).kbdIn = s.kbdIn ∧ (s.afterRead kbsrAddr).mem.read kbdrAddr = s.mem.read kbdrAddr ∧
      (s.afterRead kbsrAddr).mem.read kbsrAddr =
        (if Config.kbsrPollMode = .bit15Only then s.mem.read kbsrAddr &&& 0x7FFF#16 else 0x0000#16)

/-- R33: a write stores the word, at any address, and does nothing else. -/
def Obligations.MemWriteStoresOneCell : Prop :=
  ∀ (s : State) (a v : Word), (s.memWrite a v).mem.read a = v ∧
    (∀ b, b ≠ a → (s.memWrite a v).mem.read b = s.mem.read b) ∧
    s.memWrite a v = { s with mem := (s.memWrite a v).mem }

/-- R109, R114: an image that fits is copied into consecutive cells and nothing else changes, PC not either; one that does
not fit is not loaded (the model's choice, log entry 8). -/
def Obligations.ImageLoadWritesOnlyItsCells : Prop :=
  (∀ (s : State) (origin : Word) (ws : List Word), origin.toNat + ws.length ≤ 65536 →
    ∃ t, s.load origin ws = some t ∧
      (∀ (n : Nat) (h : n < ws.length), t.mem.read (BitVec.ofNat 16 (origin.toNat + n)) = ws[n]) ∧
      (∀ a : Word, (a.toNat < origin.toNat ∨ origin.toNat + ws.length ≤ a.toNat) → t.mem.read a = s.mem.read a) ∧
      t = { s with mem := t.mem }) ∧
  ∀ (s : State) (origin : Word) (ws : List Word), 65536 < origin.toNat + ws.length → s.load origin ws = none

/-! ### Operate instructions -/

/-- R69. -/
def Obligations.AddRegisterResult : Prop :=
  Claims.rowDecodes 0x1000#16 0xF020#16
    (fun w => .add (Claims.regField w 9) (Claims.regField w 6) (Claims.regField w 0)) ∧
  ∀ (dr sr1 sr2 : Reg) (s : State), ∃ t, exec (.add dr sr1 sr2) s = .next t ∧
    Claims.operateResult s t dr (BitVec.ofNat 16 ((s.reg sr1).toNat + (s.reg sr2).toNat))

/-- R70. -/
def Obligations.AddImmediateResult : Prop :=
  Claims.rowDecodes 0x1020#16 0xF020#16
    (fun w => .addi (Claims.regField w 9) (Claims.regField w 6) (Claims.valField w 0 5)) ∧
  ∀ (dr sr1 : Reg) (imm : BitVec 5) (s : State), ∃ t, exec (.addi dr sr1 imm) s = .next t ∧
    Claims.operateResult s t dr (BitVec.ofNat 16 ((s.reg sr1).toNat + Claims.sextNat 5 imm.toNat))

/-- R71. -/
def Obligations.AndRegisterResult : Prop :=
  Claims.rowDecodes 0x5000#16 0xF020#16
    (fun w => .and (Claims.regField w 9) (Claims.regField w 6) (Claims.regField w 0)) ∧
  ∀ (dr sr1 sr2 : Reg) (s : State), ∃ t, exec (.and dr sr1 sr2) s = .next t ∧
    (∀ k, (t.reg dr).getLsbD k = ((s.reg sr1).getLsbD k && (s.reg sr2).getLsbD k)) ∧
    Claims.operateResult s t dr (t.reg dr)

/-- R72. -/
def Obligations.AndImmediateResult : Prop :=
  Claims.rowDecodes 0x5020#16 0xF020#16
    (fun w => .andi (Claims.regField w 9) (Claims.regField w 6) (Claims.valField w 0 5)) ∧
  ∀ (dr sr1 : Reg) (imm : BitVec 5) (s : State), ∃ t, exec (.andi dr sr1 imm) s = .next t ∧
    Claims.operateResult s t dr (s.reg sr1 &&& BitVec.ofNat 16 (Claims.sextNat 5 imm.toNat))

/-- R73. -/
def Obligations.NotResult : Prop :=
  Claims.rowDecodes 0x9000#16 0xF000#16 (fun w => .not (Claims.regField w 9) (Claims.regField w 6)) ∧
  ∀ (dr sr : Reg) (s : State), ∃ t, exec (.not dr sr) s = .next t ∧
    Claims.operateResult s t dr (BitVec.ofNat 16 (65535 - (s.reg sr).toNat))

/-! ### Control transfer -/

/-- R75. -/
def Obligations.BranchResult : Prop :=
  Claims.rowDecodes 0x0000#16 0xF000#16 (fun w =>
    .br (Claims.bitField w 11) (Claims.bitField w 10) (Claims.bitField w 9) (Claims.valField w 0 9)) ∧
  ∀ (n z p : Bool) (off : BitVec 9) (s : State), ∃ t, exec (.br n z p off) s = .next t ∧
    Claims.controlResult s t
      (if (n = true ∧ s.cond = .neg) ∨ (z = true ∧ s.cond = .zro) ∨ (p = true ∧ s.cond = .pos) then Claims.target s.pc off
        else s.pc) ∧
    Claims.keepsRegs s t []

/-- R76. -/
def Obligations.JumpResult : Prop :=
  Claims.rowDecodes 0xC000#16 0xF000#16 (fun w => .jmp (Claims.regField w 6)) ∧
  ∀ (base : Reg) (s : State), ∃ t, exec (.jmp base) s = .next t ∧ Claims.controlResult s t (s.reg base) ∧
    Claims.keepsRegs s t []

/-- R77. -/
def Obligations.JsrLinksAndJumps : Prop :=
  Claims.rowDecodes 0x4800#16 0xF800#16 (fun w => .jsr (Claims.valField w 0 11)) ∧
  ∀ (off : BitVec 11) (s : State), ∃ t, exec (.jsr off) s = .next t ∧
    Claims.controlResult s t (Claims.target s.pc off) ∧ t.reg .r7 = s.pc ∧ Claims.keepsRegs s t [.r7]

/-- R78: the link comes first, so with base R7 the jump goes to the incremented PC. -/
def Obligations.JsrrLinksThenReadsTheBase : Prop :=
  Claims.rowDecodes 0x4000#16 0xF800#16 (fun w => .jsrr (Claims.regField w 6)) ∧
  ∀ (base : Reg) (s : State), ∃ t, exec (.jsrr base) s = .next t ∧
    Claims.controlResult s t (if base = .r7 then s.pc else s.reg base) ∧ t.reg .r7 = s.pc ∧ Claims.keepsRegs s t [.r7]

/-! ### Loads and stores -/

/-- R80. -/
def Obligations.LoadResult : Prop :=
  Claims.rowDecodes 0x2000#16 0xF000#16 (fun w => .ld (Claims.regField w 9) (Claims.valField w 0 9)) ∧
  ∀ (dr : Reg) (off : BitVec 9) (s : State), ∃ t, exec (.ld dr off) s = .next t ∧
    Claims.dataResult s t dr (s.readValue (pcRelative s.pc off)) ∧
    Claims.readsOnly s t (s.afterRead (pcRelative s.pc off)) ∧ Claims.keepsMemBut s t [pcRelative s.pc off]

/-- R81: the pointer read, then the operand read, each a full MemRead. -/
def Obligations.LoadIndirectResult : Prop :=
  Claims.rowDecodes 0xA000#16 0xF000#16 (fun w => .ldi (Claims.regField w 9) (Claims.valField w 0 9)) ∧
  ∀ (dr : Reg) (off : BitVec 9) (s : State), ∃ t, exec (.ldi dr off) s = .next t ∧
    Claims.dataResult s t dr
      ((s.afterRead (pcRelative s.pc off)).readValue (s.readValue (pcRelative s.pc off))) ∧
    Claims.readsOnly s t ((s.afterRead (pcRelative s.pc off)).afterRead (s.readValue (pcRelative s.pc off))) ∧
    Claims.keepsMemBut s t [pcRelative s.pc off, s.readValue (pcRelative s.pc off)]

/-- R82. -/
def Obligations.LoadBaseOffsetResult : Prop :=
  Claims.rowDecodes 0x6000#16 0xF000#16
    (fun w => .ldr (Claims.regField w 9) (Claims.regField w 6) (Claims.valField w 0 6)) ∧
  ∀ (dr base : Reg) (off : BitVec 6) (s : State), ∃ t, exec (.ldr dr base off) s = .next t ∧
    Claims.dataResult s t dr (s.readValue (baseOffset (s.reg base) off)) ∧
    Claims.readsOnly s t (s.afterRead (baseOffset (s.reg base) off)) ∧
    Claims.keepsMemBut s t [baseOffset (s.reg base) off]

/-- R83: the address itself, no memory access, COND set. -/
def Obligations.LeaResult : Prop :=
  Claims.rowDecodes 0xE000#16 0xF000#16 (fun w => .lea (Claims.regField w 9) (Claims.valField w 0 9)) ∧
  ∀ (dr : Reg) (off : BitVec 9) (s : State), ∃ t, exec (.lea dr off) s = .next t ∧
    Claims.operateResult s t dr (Claims.target s.pc off)

/-- R84. -/
def Obligations.StoreResult : Prop :=
  Claims.rowDecodes 0x3000#16 0xF000#16 (fun w => .st (Claims.regField w 9) (Claims.valField w 0 9)) ∧
  ∀ (sr : Reg) (off : BitVec 9) (s : State), ∃ t, exec (.st sr off) s = .next t ∧
    Claims.storeResult s t s (pcRelative s.pc off) (s.reg sr)

/-- R85: the pointer is read through MemRead. -/
def Obligations.StoreIndirectResult : Prop :=
  Claims.rowDecodes 0xB000#16 0xF000#16 (fun w => .sti (Claims.regField w 9) (Claims.valField w 0 9)) ∧
  ∀ (sr : Reg) (off : BitVec 9) (s : State), ∃ t, exec (.sti sr off) s = .next t ∧
    Claims.storeResult s t (s.afterRead (pcRelative s.pc off)) (s.readValue (pcRelative s.pc off)) (s.reg sr)

/-- R86. -/
def Obligations.StoreBaseOffsetResult : Prop :=
  Claims.rowDecodes 0x7000#16 0xF000#16
    (fun w => .str (Claims.regField w 9) (Claims.regField w 6) (Claims.valField w 0 6)) ∧
  ∀ (sr base : Reg) (off : BitVec 6) (s : State), ∃ t, exec (.str sr base off) s = .next t ∧
    Claims.storeResult s t s (baseOffset (s.reg base) off) (s.reg sr)

/-! ### The trap dispatcher -/

/-- R88, decisions D3 and D15: the vector selects the service; the link is made before the vector is checked; any other
vector ends the run. -/
def Obligations.TrapDispatch : Prop :=
  Claims.rowDecodes 0xF000#16 0xF000#16 (fun w => match Claims.fieldNat w 0 8 with
    | 0x20 => .trapGetc | 0x21 => .trapOut | 0x22 => .trapPuts | 0x23 => .trapIn | 0x24 => .trapPutsp | 0x25 => .trapHalt
    | _ => .trap (Claims.valField w 0 8)) ∧
  (∀ s : State, exec (.trap 0x20#8) s = exec .trapGetc s ∧ exec (.trap 0x21#8) s = exec .trapOut s ∧
    exec (.trap 0x22#8) s = exec .trapPuts s ∧ exec (.trap 0x23#8) s = exec .trapIn s ∧
    exec (.trap 0x24#8) s = exec .trapPutsp s ∧ exec (.trap 0x25#8) s = exec .trapHalt s) ∧
  ∀ (v : Byte) (s : State), (v.toNat < 0x20 ∨ 0x25 < v.toNat) → ∃ t, exec (.trap v) s = .next t ∧
    t.status = .faulted (.invalidTrap v s.pc) ∧ Claims.trapFrame s t [] ∧ t.cond = s.cond ∧ Claims.keepsMem s t ∧
    Claims.keepsConsole s t ∧ t.service = s.service

/-- R89: with a byte there GETC completes; without one it waits, its link made: the waiting state is the model's choice
(log entry 5). -/
def Obligations.GetcResult : Prop :=
  Claims.rowDecodes 0xF020#16 0xF0FF#16 (fun _ => .trapGetc) ∧
  (∀ (s : State) (k : Byte) (rest : List Byte), s.kbdIn = k :: rest → ∃ t, exec .trapGetc s = .next t ∧
    Claims.trapFrame s t [.r0] ∧ Claims.keyAccepted s t k rest ∧ t.conOut = s.conOut) ∧
  ∀ s : State, s.kbdIn = [] → ∃ t, exec .trapGetc s = .next t ∧
    Claims.trapFrame s t [] ∧ Claims.keyAwaited s t .getc ∧ t.conOut = s.conOut

/-- R90. -/
def Obligations.OutResult : Prop :=
  Claims.rowDecodes 0xF021#16 0xF0FF#16 (fun _ => .trapOut) ∧
  ∀ s : State, ∃ t, exec .trapOut s = .next t ∧ t.conOut = s.conOut ++ [Claims.byteField (s.reg .r0) 0] ∧
    Claims.trapFrame s t [] ∧ t.cond = s.cond ∧ Claims.keepsMem s t ∧ t.kbdIn = s.kbdIn ∧ t.polls = s.polls ∧
    Claims.keepsRun s t

/-- R91, word by word: the TRAP takes the word at R0, and each further micro-step the next word. The micro-steps follow
D29, their form is the model's choice (log entry 5). -/
def Obligations.PutsTakesOneWordAtATime : Prop :=
  Claims.rowDecodes 0xF022#16 0xF0FF#16 (fun _ => .trapPuts) ∧
  (∀ s : State, ∃ t, exec .trapPuts s = .next t ∧ Claims.putsWord s t (s.reg .r0) ∧ Claims.trapFrame s t []) ∧
  ∀ (s : State) (a : Word), s.status = .running → s.service = .puts a →
    ∃ t, step s = .next t ∧ Claims.putsWord s t a ∧ Claims.keepsRegs s t []

/-- R92: the prompt, then the byte with its echo; without a byte, the prompt and the wait, whose state is the model's
choice (log entry 5). -/
def Obligations.InResult : Prop :=
  Claims.rowDecodes 0xF023#16 0xF0FF#16 (fun _ => .trapIn) ∧
  (∀ (s : State) (k : Byte) (rest : List Byte), s.kbdIn = k :: rest → ∃ t, exec .trapIn s = .next t ∧
    Claims.trapFrame s t [.r0] ∧ Claims.keyAccepted s t k rest ∧ t.conOut = s.conOut ++ Config.inPrompt ++ [k]) ∧
  ∀ s : State, s.kbdIn = [] → ∃ t, exec .trapIn s = .next t ∧
    Claims.trapFrame s t [] ∧ Claims.keyAwaited s t .inChar ∧ t.conOut = s.conOut ++ Config.inPrompt

/-- R93, word by word; the micro-steps are the model's choice (log entry 5, D29). -/
def Obligations.PutspTakesOneWordAtATime : Prop :=
  Claims.rowDecodes 0xF024#16 0xF0FF#16 (fun _ => .trapPutsp) ∧
  (∀ s : State, ∃ t, exec .trapPutsp s = .next t ∧ Claims.putspWord s t (s.reg .r0) ∧ Claims.trapFrame s t []) ∧
  ∀ (s : State) (a : Word), s.status = .running → s.service = .putsp a →
    ∃ t, step s = .next t ∧ Claims.putspWord s t a ∧ Claims.keepsRegs s t []

/-- R94: the notice and the end of the run; no step follows (R63). That the step of the ended state is the fault `ended` that
names its end is the model's choice (log entry 10). -/
def Obligations.HaltEndsTheRun : Prop :=
  Claims.rowDecodes 0xF025#16 0xF0FF#16 (fun _ => .trapHalt) ∧
  ∀ s : State, ∃ t, exec .trapHalt s = .next t ∧ t.status = .halted .haltTrap ∧
    t.conOut = s.conOut ++ Config.haltNotice ∧ Claims.trapFrame s t [] ∧ t.cond = s.cond ∧ Claims.keepsMem s t ∧
    t.kbdIn = s.kbdIn ∧ t.polls = s.polls ∧ t.service = s.service ∧ step t = .fault (.ended .haltTrap)

/-- R91: PUTS writes exactly the low bytes of the words before the first zero word, one micro-step a word
(log entry 5), and changes nothing else. -/
def Obligations.PutsWritesTheWholeString : Prop :=
  ∀ (s : State) (ws : List Word), s.status = .running → (∀ w ∈ ws, w ≠ 0#16) →
    (∀ (n : Nat) (h : n < ws.length), s.mem.read (BitVec.ofNat 16 ((s.reg .r0).toNat + n)) = ws[n]) →
    s.mem.read (BitVec.ofNat 16 ((s.reg .r0).toNat + ws.length)) = 0#16 →
    (∀ n, n ≤ ws.length → BitVec.ofNat 16 ((s.reg .r0).toNat + n) ≠ kbsrAddr) →
    ∃ t0 t, exec .trapPuts s = .next t0 ∧ core.run ws.length t0 = .next t ∧
      t.conOut = s.conOut ++ ws.map (Claims.byteField · 0) ∧ t.service = .idle ∧ Claims.trapFrame s t [] ∧
      t.cond = s.cond ∧ Claims.keepsMem s t ∧ t.kbdIn = s.kbdIn ∧ t.polls = s.polls ∧ t.status = .running

/-- R93: PUTSP writes both bytes of each word whose high byte is not zero, then the low byte of the first word
whose high byte is zero unless that word is 0x0000 (micro-steps: log entry 5), and changes nothing else. -/
def Obligations.PutspWritesThePackedString : Prop :=
  ∀ (s : State) (ws : List Word) (last : Word), s.status = .running →
    (∀ w ∈ ws, Claims.byteField w 8 ≠ 0#8) → Claims.byteField last 8 = 0#8 →
    (∀ (n : Nat) (h : n < ws.length), s.mem.read (BitVec.ofNat 16 ((s.reg .r0).toNat + n)) = ws[n]) →
    s.mem.read (BitVec.ofNat 16 ((s.reg .r0).toNat + ws.length)) = last →
    (∀ n, n ≤ ws.length → BitVec.ofNat 16 ((s.reg .r0).toNat + n) ≠ kbsrAddr) →
    ∃ t0 t, exec .trapPutsp s = .next t0 ∧ core.run ws.length t0 = .next t ∧
      t.conOut = s.conOut ++ ws.flatMap (fun w => [Claims.byteField w 0, Claims.byteField w 8]) ++
        (if last = 0#16 then [] else [Claims.byteField last 0]) ∧
      t.service = .idle ∧ Claims.trapFrame s t [] ∧ t.cond = s.cond ∧ Claims.keepsMem s t ∧ t.kbdIn = s.kbdIn ∧
      t.polls = s.polls ∧ t.status = .running

/-- R68: a machine that waits in GETC or IN has no next step while no byte is there, and the step completes with the
byte when one arrives. The waiting state and the name of its fault are the model's choice (log entry 5). -/
def Obligations.WaitingServiceEndsWithTheByte : Prop :=
  (∀ s : State, s.status = .running → (s.service = .getc ∨ s.service = .inChar) → s.kbdIn = [] →
    step s = .fault .waiting) ∧
  (∀ (s : State) (k : Byte) (rest : List Byte), s.status = .running → s.service = .getc → s.kbdIn = k :: rest →
    ∃ t, step s = .next t ∧ Claims.keyAccepted s t k rest ∧ t.conOut = s.conOut ∧ Claims.keepsRegs s t [.r0] ∧
      t.pc = s.pc) ∧
  ∀ (s : State) (k : Byte) (rest : List Byte), s.status = .running → s.service = .inChar → s.kbdIn = k :: rest →
    ∃ t, step s = .next t ∧ Claims.keyAccepted s t k rest ∧ t.conOut = s.conOut ++ [k] ∧ Claims.keepsRegs s t [.r0] ∧
      t.pc = s.pc

/-! ### The reserved opcodes -/

/-- R97: the fatal error, and no step follows (R63, R102). That the step of the ended state is the fault `fatal` that names
its end is the model's choice (log entry 10). -/
def Obligations.RtiIsFatal : Prop :=
  Claims.rowDecodes 0x8000#16 0xF000#16 (fun _ => .rti) ∧
  ∀ s : State, exec .rti s = .next { s with status := .faulted (.invalidOpcode 0x8#4 s.pc) } ∧
    ∀ t, exec .rti s = .next t → step t = .fault (.fatal (.invalidOpcode 0x8#4 s.pc))

/-- R98: the fatal error, and no step follows (R63, R102). That the step of the ended state is the fault `fatal` that names
its end is the model's choice (log entry 10). -/
def Obligations.ResIsFatal : Prop :=
  Claims.rowDecodes 0xD000#16 0xF000#16 (fun _ => .res) ∧
  ∀ s : State, exec .res s = .next { s with status := .faulted (.invalidOpcode 0xD#4 s.pc) } ∧
    ∀ t, exec .res s = .next t → step t = .fault (.fatal (.invalidOpcode 0xD#4 s.pc))

end
end

