-- ==== Sys2Proof/Laws/Decode.lean ====
section
/-! SUPPORT. The small laws of the decoder's and the encoder's fields. -/

namespace Sys2Proof

open Sys2Proof.Machine

/-- A register field names the register it was made from (R19, R56). -/
@[simp] theorem Reg.ofBits_toBits (r : Reg) : Reg.ofBits r.toBits = r := by cases r <;> rfl

/-- Every 3-bit value is the field of the register it names (R19, R56). -/
@[simp] theorem Reg.toBits_ofBits (b : BitVec 3) : (Reg.ofBits b).toBits = b := by revert b; decide

/-- One bit of a placed field. -/
theorem getElem_field {n : Nat} (v : BitVec n) (lo i : Nat) (h : i < 16) :
    (field v lo)[i] = (decide (lo ≤ i) && v.getLsbD (i - lo)) := by
  unfold field
  simp only [BitVec.getElem_shiftLeft, BitVec.getElem_setWidth]
  by_cases h' : lo ≤ i <;> simp [h']

/-- One bit of a field read from a word. -/
theorem getElem_bitsAt (w : Word) (lo n i : Nat) (h : i < n) : (bitsAt w lo n)[i] = w.getLsbD (lo + i) := by
  simp [bitsAt]

/-- The opcode in its place is the field [15:12]. -/
@[simp] theorem opBits_eq (op : BitVec 4) : opBits op = field op 12 := rfl

/-- The ignored bits as R58 prints them: ADD and AND register [4:3], NOT [5:0], JMP [11:9] and [5:0], JSRR [10:9] and
[5:0], TRAP [11:8]; RTI and RES carry nothing in [11:0] (R54); the other formats fill the word. -/
theorem ignoredBits_eq (i : Instr) : ignoredBits i =
    match i with
    | .add _ _ _ | .and _ _ _ => 0x0018#16
    | .not _ _ => 0x003F#16
    | .jmp _ => 0x0E3F#16
    | .jsrr _ => 0x063F#16
    | .rti | .res => 0x0FFF#16
    | .trap _ | .trapGetc | .trapOut | .trapPuts | .trapIn | .trapPutsp | .trapHalt => 0x0F00#16
    | .br _ _ _ _ | .addi _ _ _ | .andi _ _ _ | .ld _ _ | .st _ _ | .jsr _ | .ldr _ _ _ | .str _ _ _ | .ldi _ _
    | .sti _ _ | .lea _ _ => 0x0000#16 := by
  cases i <;> (simp only [ignoredBits, usedBits]; decide)

/-- The opcode map as R55 prints it. -/
theorem opcodeTable_eq : opcodeTable =
    [⟨.BR, 0x0000#16, 0xF000#16⟩, ⟨.ADD, 0x1000#16, 0xF020#16⟩, ⟨.ADDi, 0x1020#16, 0xF020#16⟩,
     ⟨.LD, 0x2000#16, 0xF000#16⟩, ⟨.ST, 0x3000#16, 0xF000#16⟩, ⟨.JSRR, 0x4000#16, 0xF800#16⟩,
     ⟨.JSR, 0x4800#16, 0xF800#16⟩, ⟨.AND, 0x5000#16, 0xF020#16⟩, ⟨.ANDi, 0x5020#16, 0xF020#16⟩,
     ⟨.LDR, 0x6000#16, 0xF000#16⟩, ⟨.STR, 0x7000#16, 0xF000#16⟩, ⟨.RTI, 0x8000#16, 0xF000#16⟩,
     ⟨.NOT, 0x9000#16, 0xF000#16⟩, ⟨.LDI, 0xA000#16, 0xF000#16⟩, ⟨.STI, 0xB000#16, 0xF000#16⟩,
     ⟨.JMP, 0xC000#16, 0xF000#16⟩, ⟨.RES, 0xD000#16, 0xF000#16⟩, ⟨.LEA, 0xE000#16, 0xF000#16⟩,
     ⟨.TRAP, 0xF000#16, 0xF000#16⟩, ⟨.TRAP_GETC, 0xF020#16, 0xF0FF#16⟩, ⟨.TRAP_OUT, 0xF021#16, 0xF0FF#16⟩,
     ⟨.TRAP_PUTS, 0xF022#16, 0xF0FF#16⟩, ⟨.TRAP_IN, 0xF023#16, 0xF0FF#16⟩, ⟨.TRAP_PUTSP, 0xF024#16, 0xF0FF#16⟩,
     ⟨.TRAP_HALT, 0xF025#16, 0xF0FF#16⟩] := by decide

/-- A vector that names no service decodes as the TRAP row (R55, R88). -/
theorem decodeTrap_invalid {v : Byte} (h : isServiceVector v = false) : decodeTrap v = .trap v := by
  have ne : ∀ u, isServiceVector u = true → v ≠ u := fun u hu e => by rw [e, hu] at h; cases h
  simp [decodeTrap, ne vecGetc (by decide), ne vecOut (by decide), ne vecPuts (by decide), ne vecIn (by decide),
    ne vecPutsp (by decide), ne vecHalt (by decide)]

/-- Every opcode is one of the sixteen (R55, R57). -/
theorem opcode_cases (op : BitVec 4) :
    op = opBr ∨ op = opAdd ∨ op = opLd ∨ op = opSt ∨ op = opJsr ∨ op = opAnd ∨ op = opLdr ∨ op = opStr ∨ op = opRti ∨
      op = opNot ∨ op = opLdi ∨ op = opSti ∨ op = opJmp ∨ op = opRes ∨ op = opLea ∨ op = opTrap := by
  revert op; decide

/-- What a word decodes to, opcode by opcode: to show `P` of it, show `P` of each form under the bits that select it
(R55, R67). -/
theorem decode_elim (w : Word) {P : Instr → Prop}
    (hBr : opcodeOf w = opBr → P (.br (w.getLsbD posN) (w.getLsbD posZ) (w.getLsbD posP) (bitsAt w posOff9 9)))
    (hAddi : opcodeOf w = opAdd → w.getLsbD posMode = true → P (.addi (regAt w posDr) (regAt w posSr1) (bitsAt w posImm5 5)))
    (hAdd : opcodeOf w = opAdd → w.getLsbD posMode = false → P (.add (regAt w posDr) (regAt w posSr1) (regAt w posSr2)))
    (hLd : opcodeOf w = opLd → P (.ld (regAt w posDr) (bitsAt w posOff9 9)))
    (hSt : opcodeOf w = opSt → P (.st (regAt w posSr) (bitsAt w posOff9 9)))
    (hJsr : opcodeOf w = opJsr → w.getLsbD posJsrMode = true → P (.jsr (bitsAt w posOff11 11)))
    (hJsrr : opcodeOf w = opJsr → w.getLsbD posJsrMode = false → P (.jsrr (regAt w posBase)))
    (hAndi : opcodeOf w = opAnd → w.getLsbD posMode = true → P (.andi (regAt w posDr) (regAt w posSr1) (bitsAt w posImm5 5)))
    (hAnd : opcodeOf w = opAnd → w.getLsbD posMode = false → P (.and (regAt w posDr) (regAt w posSr1) (regAt w posSr2)))
    (hLdr : opcodeOf w = opLdr → P (.ldr (regAt w posDr) (regAt w posBase) (bitsAt w posOff6 6)))
    (hStr : opcodeOf w = opStr → P (.str (regAt w posSr) (regAt w posBase) (bitsAt w posOff6 6)))
    (hRti : opcodeOf w = opRti → P .rti)
    (hNot : opcodeOf w = opNot → P (.not (regAt w posDr) (regAt w posNotSr)))
    (hLdi : opcodeOf w = opLdi → P (.ldi (regAt w posDr) (bitsAt w posOff9 9)))
    (hSti : opcodeOf w = opSti → P (.sti (regAt w posSr) (bitsAt w posOff9 9)))
    (hJmp : opcodeOf w = opJmp → P (.jmp (regAt w posBase)))
    (hRes : opcodeOf w = opRes → P .res)
    (hLea : opcodeOf w = opLea → P (.lea (regAt w posDr) (bitsAt w posOff9 9)))
    (hTrap : opcodeOf w = opTrap → P (decodeTrap (bitsAt w posVector 8))) : P (decode w) := by
  unfold decode
  by_cases e0 : opcodeOf w = opBr
  · rw [if_pos e0]; exact hBr e0
  rw [if_neg e0]
  by_cases e1 : opcodeOf w = opAdd
  · rw [if_pos e1]
    by_cases b : w.getLsbD posMode = true
    · rw [if_pos b]; exact hAddi e1 b
    · rw [if_neg b]; exact hAdd e1 (by simpa using b)
  rw [if_neg e1]
  by_cases e2 : opcodeOf w = opLd
  · rw [if_pos e2]; exact hLd e2
  rw [if_neg e2]
  by_cases e3 : opcodeOf w = opSt
  · rw [if_pos e3]; exact hSt e3
  rw [if_neg e3]
  by_cases e4 : opcodeOf w = opJsr
  · rw [if_pos e4]
    by_cases b : w.getLsbD posJsrMode = true
    · rw [if_pos b]; exact hJsr e4 b
    · rw [if_neg b]; exact hJsrr e4 (by simpa using b)
  rw [if_neg e4]
  by_cases e5 : opcodeOf w = opAnd
  · rw [if_pos e5]
    by_cases b : w.getLsbD posMode = true
    · rw [if_pos b]; exact hAndi e5 b
    · rw [if_neg b]; exact hAnd e5 (by simpa using b)
  rw [if_neg e5]
  by_cases e6 : opcodeOf w = opLdr
  · rw [if_pos e6]; exact hLdr e6
  rw [if_neg e6]
  by_cases e7 : opcodeOf w = opStr
  · rw [if_pos e7]; exact hStr e7
  rw [if_neg e7]
  by_cases e8 : opcodeOf w = opRti
  · rw [if_pos e8]; exact hRti e8
  rw [if_neg e8]
  by_cases e9 : opcodeOf w = opNot
  · rw [if_pos e9]; exact hNot e9
  rw [if_neg e9]
  by_cases e10 : opcodeOf w = opLdi
  · rw [if_pos e10]; exact hLdi e10
  rw [if_neg e10]
  by_cases e11 : opcodeOf w = opSti
  · rw [if_pos e11]; exact hSti e11
  rw [if_neg e11]
  by_cases e12 : opcodeOf w = opJmp
  · rw [if_pos e12]; exact hJmp e12
  rw [if_neg e12]
  by_cases e13 : opcodeOf w = opRes
  · rw [if_pos e13]; exact hRes e13
  rw [if_neg e13]
  by_cases e14 : opcodeOf w = opLea
  · rw [if_pos e14]; exact hLea e14
  rw [if_neg e14]
  apply hTrap
  simpa only [e0, e1, e2, e3, e4, e5, e6, e7, e8, e9, e10, e11, e12, e13, e14, false_or] using opcode_cases (opcodeOf w)

end Sys2Proof
end

