-- ==== Sys2Proof/Laws/State.lean ====
section
/-! SUPPORT. One lemma per field per update of the state, so that no proof unfolds a record update, and what a general
register reads as after each update. -/

namespace Sys2Proof.Machine

/-! #### setReg -/
@[simp] theorem State.setReg_regs (s : State) (r : Reg) (v : Word) (u : Bool) : (s.setReg r v u).regs = s.regs.set r v := rfl
@[simp] theorem State.setReg_pc (s : State) (r : Reg) (v : Word) (u : Bool) : (s.setReg r v u).pc = s.pc := rfl
@[simp] theorem State.setReg_cond (s : State) (r : Reg) (v : Word) (u : Bool) : (s.setReg r v u).cond = if u then condOf v else s.cond := rfl
@[simp] theorem State.setReg_mem (s : State) (r : Reg) (v : Word) (u : Bool) : (s.setReg r v u).mem = s.mem := rfl
@[simp] theorem State.setReg_status (s : State) (r : Reg) (v : Word) (u : Bool) : (s.setReg r v u).status = s.status := rfl
@[simp] theorem State.setReg_kbdIn (s : State) (r : Reg) (v : Word) (u : Bool) : (s.setReg r v u).kbdIn = s.kbdIn := rfl
@[simp] theorem State.setReg_conOut (s : State) (r : Reg) (v : Word) (u : Bool) : (s.setReg r v u).conOut = s.conOut := rfl
@[simp] theorem State.setReg_service (s : State) (r : Reg) (v : Word) (u : Bool) : (s.setReg r v u).service = s.service := rfl
@[simp] theorem State.setReg_polls (s : State) (r : Reg) (v : Word) (u : Bool) : (s.setReg r v u).polls = s.polls := rfl

/-! #### setPc -/
@[simp] theorem State.setPc_regs (s : State) (t : Word) : (s.setPc t).regs = s.regs := rfl
@[simp] theorem State.setPc_pc (s : State) (t : Word) : (s.setPc t).pc = t := rfl
@[simp] theorem State.setPc_cond (s : State) (t : Word) : (s.setPc t).cond = s.cond := rfl
@[simp] theorem State.setPc_mem (s : State) (t : Word) : (s.setPc t).mem = s.mem := rfl
@[simp] theorem State.setPc_status (s : State) (t : Word) : (s.setPc t).status = s.status := rfl
@[simp] theorem State.setPc_kbdIn (s : State) (t : Word) : (s.setPc t).kbdIn = s.kbdIn := rfl
@[simp] theorem State.setPc_conOut (s : State) (t : Word) : (s.setPc t).conOut = s.conOut := rfl
@[simp] theorem State.setPc_service (s : State) (t : Word) : (s.setPc t).service = s.service := rfl
@[simp] theorem State.setPc_polls (s : State) (t : Word) : (s.setPc t).polls = s.polls := rfl
@[simp] theorem State.setPc_reg (s : State) (t : Word) (q : Reg) : (s.setPc t).reg q = s.reg q := rfl

/-! #### memWrite -/
@[simp] theorem State.memWrite_regs (s : State) (a v : Word) : (s.memWrite a v).regs = s.regs := rfl
@[simp] theorem State.memWrite_pc (s : State) (a v : Word) : (s.memWrite a v).pc = s.pc := rfl
@[simp] theorem State.memWrite_cond (s : State) (a v : Word) : (s.memWrite a v).cond = s.cond := rfl
@[simp] theorem State.memWrite_mem (s : State) (a v : Word) : (s.memWrite a v).mem = s.mem.write a v := rfl
@[simp] theorem State.memWrite_status (s : State) (a v : Word) : (s.memWrite a v).status = s.status := rfl
@[simp] theorem State.memWrite_kbdIn (s : State) (a v : Word) : (s.memWrite a v).kbdIn = s.kbdIn := rfl
@[simp] theorem State.memWrite_conOut (s : State) (a v : Word) : (s.memWrite a v).conOut = s.conOut := rfl
@[simp] theorem State.memWrite_service (s : State) (a v : Word) : (s.memWrite a v).service = s.service := rfl
@[simp] theorem State.memWrite_polls (s : State) (a v : Word) : (s.memWrite a v).polls = s.polls := rfl
@[simp] theorem State.memWrite_reg (s : State) (a v : Word) (q : Reg) : (s.memWrite a v).reg q = s.reg q := rfl

/-! #### writeChar -/
@[simp] theorem State.writeChar_regs (s : State) (b : Byte) : (s.writeChar b).regs = s.regs := rfl
@[simp] theorem State.writeChar_pc (s : State) (b : Byte) : (s.writeChar b).pc = s.pc := rfl
@[simp] theorem State.writeChar_cond (s : State) (b : Byte) : (s.writeChar b).cond = s.cond := rfl
@[simp] theorem State.writeChar_mem (s : State) (b : Byte) : (s.writeChar b).mem = s.mem := rfl
@[simp] theorem State.writeChar_status (s : State) (b : Byte) : (s.writeChar b).status = s.status := rfl
@[simp] theorem State.writeChar_kbdIn (s : State) (b : Byte) : (s.writeChar b).kbdIn = s.kbdIn := rfl
@[simp] theorem State.writeChar_conOut (s : State) (b : Byte) : (s.writeChar b).conOut = s.conOut ++ [b] := rfl
@[simp] theorem State.writeChar_service (s : State) (b : Byte) : (s.writeChar b).service = s.service := rfl
@[simp] theorem State.writeChar_polls (s : State) (b : Byte) : (s.writeChar b).polls = s.polls := rfl
@[simp] theorem State.writeChar_reg (s : State) (b : Byte) (q : Reg) : (s.writeChar b).reg q = s.reg q := rfl

/-! #### writeChars -/
@[simp] theorem State.writeChars_regs (s : State) (bs : List Byte) : (s.writeChars bs).regs = s.regs := rfl
@[simp] theorem State.writeChars_pc (s : State) (bs : List Byte) : (s.writeChars bs).pc = s.pc := rfl
@[simp] theorem State.writeChars_cond (s : State) (bs : List Byte) : (s.writeChars bs).cond = s.cond := rfl
@[simp] theorem State.writeChars_mem (s : State) (bs : List Byte) : (s.writeChars bs).mem = s.mem := rfl
@[simp] theorem State.writeChars_status (s : State) (bs : List Byte) : (s.writeChars bs).status = s.status := rfl
@[simp] theorem State.writeChars_kbdIn (s : State) (bs : List Byte) : (s.writeChars bs).kbdIn = s.kbdIn := rfl
@[simp] theorem State.writeChars_conOut (s : State) (bs : List Byte) : (s.writeChars bs).conOut = s.conOut ++ bs := rfl
@[simp] theorem State.writeChars_service (s : State) (bs : List Byte) : (s.writeChars bs).service = s.service := rfl
@[simp] theorem State.writeChars_polls (s : State) (bs : List Byte) : (s.writeChars bs).polls = s.polls := rfl
@[simp] theorem State.writeChars_reg (s : State) (bs : List Byte) (q : Reg) : (s.writeChars bs).reg q = s.reg q := rfl

/-! #### halt -/
@[simp] theorem State.halt_regs (s : State) (why : HaltReason) : (s.halt why).regs = s.regs := rfl
@[simp] theorem State.halt_pc (s : State) (why : HaltReason) : (s.halt why).pc = s.pc := rfl
@[simp] theorem State.halt_cond (s : State) (why : HaltReason) : (s.halt why).cond = s.cond := rfl
@[simp] theorem State.halt_mem (s : State) (why : HaltReason) : (s.halt why).mem = s.mem := rfl
@[simp] theorem State.halt_status (s : State) (why : HaltReason) : (s.halt why).status = .halted why := rfl
@[simp] theorem State.halt_kbdIn (s : State) (why : HaltReason) : (s.halt why).kbdIn = s.kbdIn := rfl
@[simp] theorem State.halt_conOut (s : State) (why : HaltReason) : (s.halt why).conOut = s.conOut := rfl
@[simp] theorem State.halt_service (s : State) (why : HaltReason) : (s.halt why).service = s.service := rfl
@[simp] theorem State.halt_polls (s : State) (why : HaltReason) : (s.halt why).polls = s.polls := rfl
@[simp] theorem State.halt_reg (s : State) (why : HaltReason) (q : Reg) : (s.halt why).reg q = s.reg q := rfl

/-! #### raise -/
@[simp] theorem State.raise_regs (s : State) (what : Fatal) : (s.raise what).regs = s.regs := rfl
@[simp] theorem State.raise_pc (s : State) (what : Fatal) : (s.raise what).pc = s.pc := rfl
@[simp] theorem State.raise_cond (s : State) (what : Fatal) : (s.raise what).cond = s.cond := rfl
@[simp] theorem State.raise_mem (s : State) (what : Fatal) : (s.raise what).mem = s.mem := rfl
@[simp] theorem State.raise_status (s : State) (what : Fatal) : (s.raise what).status = .faulted what := rfl
@[simp] theorem State.raise_kbdIn (s : State) (what : Fatal) : (s.raise what).kbdIn = s.kbdIn := rfl
@[simp] theorem State.raise_conOut (s : State) (what : Fatal) : (s.raise what).conOut = s.conOut := rfl
@[simp] theorem State.raise_service (s : State) (what : Fatal) : (s.raise what).service = s.service := rfl
@[simp] theorem State.raise_polls (s : State) (what : Fatal) : (s.raise what).polls = s.polls := rfl
@[simp] theorem State.raise_reg (s : State) (what : Fatal) (q : Reg) : (s.raise what).reg q = s.reg q := rfl

/-! #### serviceDone -/
@[simp] theorem State.serviceDone_regs (s : State) : (s.serviceDone).regs = s.regs := rfl
@[simp] theorem State.serviceDone_pc (s : State) : (s.serviceDone).pc = s.pc := rfl
@[simp] theorem State.serviceDone_cond (s : State) : (s.serviceDone).cond = s.cond := rfl
@[simp] theorem State.serviceDone_mem (s : State) : (s.serviceDone).mem = s.mem := rfl
@[simp] theorem State.serviceDone_status (s : State) : (s.serviceDone).status = s.status := rfl
@[simp] theorem State.serviceDone_kbdIn (s : State) : (s.serviceDone).kbdIn = s.kbdIn := rfl
@[simp] theorem State.serviceDone_conOut (s : State) : (s.serviceDone).conOut = s.conOut := rfl
@[simp] theorem State.serviceDone_service (s : State) : (s.serviceDone).service = .idle := rfl
@[simp] theorem State.serviceDone_polls (s : State) : (s.serviceDone).polls = s.polls := rfl
@[simp] theorem State.serviceDone_reg (s : State) (q : Reg) : (s.serviceDone).reg q = s.reg q := rfl

/-! #### serviceGoesOn -/
@[simp] theorem State.serviceGoesOn_regs (s : State) (v : Service) : (s.serviceGoesOn v).regs = s.regs := rfl
@[simp] theorem State.serviceGoesOn_pc (s : State) (v : Service) : (s.serviceGoesOn v).pc = s.pc := rfl
@[simp] theorem State.serviceGoesOn_cond (s : State) (v : Service) : (s.serviceGoesOn v).cond = s.cond := rfl
@[simp] theorem State.serviceGoesOn_mem (s : State) (v : Service) : (s.serviceGoesOn v).mem = s.mem := rfl
@[simp] theorem State.serviceGoesOn_status (s : State) (v : Service) : (s.serviceGoesOn v).status = s.status := rfl
@[simp] theorem State.serviceGoesOn_kbdIn (s : State) (v : Service) : (s.serviceGoesOn v).kbdIn = s.kbdIn := rfl
@[simp] theorem State.serviceGoesOn_conOut (s : State) (v : Service) : (s.serviceGoesOn v).conOut = s.conOut := rfl
@[simp] theorem State.serviceGoesOn_service (s : State) (v : Service) : (s.serviceGoesOn v).service = v := rfl
@[simp] theorem State.serviceGoesOn_polls (s : State) (v : Service) : (s.serviceGoesOn v).polls = s.polls := rfl
@[simp] theorem State.serviceGoesOn_reg (s : State) (v : Service) (q : Reg) : (s.serviceGoesOn v).reg q = s.reg q := rfl

/-! #### keyTaken -/
@[simp] theorem State.keyTaken_regs (s : State) (rest : List Byte) : (s.keyTaken rest).regs = s.regs := rfl
@[simp] theorem State.keyTaken_pc (s : State) (rest : List Byte) : (s.keyTaken rest).pc = s.pc := rfl
@[simp] theorem State.keyTaken_cond (s : State) (rest : List Byte) : (s.keyTaken rest).cond = s.cond := rfl
@[simp] theorem State.keyTaken_mem (s : State) (rest : List Byte) : (s.keyTaken rest).mem = s.mem := rfl
@[simp] theorem State.keyTaken_status (s : State) (rest : List Byte) : (s.keyTaken rest).status = s.status := rfl
@[simp] theorem State.keyTaken_kbdIn (s : State) (rest : List Byte) : (s.keyTaken rest).kbdIn = rest := rfl
@[simp] theorem State.keyTaken_conOut (s : State) (rest : List Byte) : (s.keyTaken rest).conOut = s.conOut := rfl
@[simp] theorem State.keyTaken_service (s : State) (rest : List Byte) : (s.keyTaken rest).service = s.service := rfl
@[simp] theorem State.keyTaken_polls (s : State) (rest : List Byte) : (s.keyTaken rest).polls = s.polls := rfl
@[simp] theorem State.keyTaken_reg (s : State) (rest : List Byte) (q : Reg) : (s.keyTaken rest).reg q = s.reg q := rfl

/-! #### What the host observes -/
@[simp] theorem State.observed_idle {s : State} (h : s.service = .idle) {α : Type} (v : α) : s.observed v = some v := by
  simp [State.observed, State.atStepBoundary, h]
@[simp] theorem State.observed_inside {s : State} (h : s.service ≠ .idle) {α : Type} (v : α) : s.observed v = none := by
  simp [State.observed, State.atStepBoundary, h]

/-! #### supplyInput -/
@[simp] theorem State.supplyInput_regs (s : State) (bs : List Byte) : (s.supplyInput bs).regs = s.regs := rfl
@[simp] theorem State.supplyInput_pc (s : State) (bs : List Byte) : (s.supplyInput bs).pc = s.pc := rfl
@[simp] theorem State.supplyInput_cond (s : State) (bs : List Byte) : (s.supplyInput bs).cond = s.cond := rfl
@[simp] theorem State.supplyInput_mem (s : State) (bs : List Byte) : (s.supplyInput bs).mem = s.mem := rfl
@[simp] theorem State.supplyInput_status (s : State) (bs : List Byte) : (s.supplyInput bs).status = s.status := rfl
@[simp] theorem State.supplyInput_kbdIn (s : State) (bs : List Byte) : (s.supplyInput bs).kbdIn = s.kbdIn ++ bs := rfl
@[simp] theorem State.supplyInput_conOut (s : State) (bs : List Byte) : (s.supplyInput bs).conOut = s.conOut := rfl
@[simp] theorem State.supplyInput_service (s : State) (bs : List Byte) : (s.supplyInput bs).service = s.service := rfl
@[simp] theorem State.supplyInput_polls (s : State) (bs : List Byte) : (s.supplyInput bs).polls = s.polls := rfl
@[simp] theorem State.supplyInput_reg (s : State) (bs : List Byte) (q : Reg) : (s.supplyInput bs).reg q = s.reg q := rfl

/-! #### poll -/
@[simp] theorem State.poll_regs (s : State) : (s.poll).regs = s.regs := rfl
@[simp] theorem State.poll_pc (s : State) : (s.poll).pc = s.pc := rfl
@[simp] theorem State.poll_cond (s : State) : (s.poll).cond = s.cond := rfl
@[simp] theorem State.poll_mem (s : State) : (s.poll).mem = s.mem.afterPoll Config.kbsrPollMode s.polledKey := rfl
@[simp] theorem State.poll_status (s : State) : (s.poll).status = s.status := rfl
@[simp] theorem State.poll_conOut (s : State) : (s.poll).conOut = s.conOut := rfl
@[simp] theorem State.poll_service (s : State) : (s.poll).service = s.service := rfl
@[simp] theorem State.poll_polls (s : State) : (s.poll).polls = s.polls + 1 := rfl
@[simp] theorem State.poll_reg (s : State) (q : Reg) : (s.poll).reg q = s.reg q := rfl

/-! #### placeNextWord -/
@[simp] theorem State.placeNextWord_regs (s : State) (w : Word) : (s.placeNextWord w).regs = s.regs := rfl
@[simp] theorem State.placeNextWord_pc (s : State) (w : Word) : (s.placeNextWord w).pc = s.pc := rfl
@[simp] theorem State.placeNextWord_cond (s : State) (w : Word) : (s.placeNextWord w).cond = s.cond := rfl
@[simp] theorem State.placeNextWord_mem (s : State) (w : Word) : (s.placeNextWord w).mem = s.mem.write s.pc w := rfl
@[simp] theorem State.placeNextWord_status (s : State) (w : Word) : (s.placeNextWord w).status = .running := rfl
@[simp] theorem State.placeNextWord_kbdIn (s : State) (w : Word) : (s.placeNextWord w).kbdIn = s.kbdIn := rfl
@[simp] theorem State.placeNextWord_conOut (s : State) (w : Word) : (s.placeNextWord w).conOut = s.conOut := rfl
@[simp] theorem State.placeNextWord_service (s : State) (w : Word) : (s.placeNextWord w).service = .idle := rfl
@[simp] theorem State.placeNextWord_polls (s : State) (w : Word) : (s.placeNextWord w).polls = s.polls := rfl
@[simp] theorem State.placeNextWord_reg (s : State) (w : Word) (q : Reg) : (s.placeNextWord w).reg q = s.reg q := rfl

/-! #### The register file -/

/-- A register reads back what was last written to it, and a write leaves every other register alone (R18). -/
@[simp] theorem Regs.get_set (g : Regs) (r q : Reg) (v : Word) : (g.set r v).get q = if q = r then v else g.get q := by
  cases r <;> cases q <;> rfl

@[simp] theorem State.setReg_reg (s : State) (r q : Reg) (v : Word) (u : Bool) :
    (s.setReg r v u).reg q = if q = r then v else s.reg q := Regs.get_set s.regs r q v

/-- Two register files that read alike are equal. -/
theorem Regs.ext_get {g h : Regs} (e : ∀ r, g.get r = h.get r) : g = h := by
  cases g; cases h
  have h0 := e .r0; have h1 := e .r1; have h2 := e .r2; have h3 := e .r3
  have h4 := e .r4; have h5 := e .r5; have h6 := e .r6; have h7 := e .r7
  simp only [Regs.get] at h0 h1 h2 h3 h4 h5 h6 h7
  subst h0 h1 h2 h3 h4 h5 h6 h7
  rfl

/-! #### trapLink: only R7, and only when TRAP_LINKS_R7 (R88) -/

@[simp] theorem State.trapLink_pc (s : State) : s.trapLink.pc = s.pc := rfl
@[simp] theorem State.trapLink_mem (s : State) : s.trapLink.mem = s.mem := rfl
@[simp] theorem State.trapLink_status (s : State) : s.trapLink.status = s.status := rfl
@[simp] theorem State.trapLink_kbdIn (s : State) : s.trapLink.kbdIn = s.kbdIn := rfl
@[simp] theorem State.trapLink_conOut (s : State) : s.trapLink.conOut = s.conOut := rfl
@[simp] theorem State.trapLink_service (s : State) : s.trapLink.service = s.service := rfl
@[simp] theorem State.trapLink_polls (s : State) : s.trapLink.polls = s.polls := rfl
@[simp] theorem State.trapLink_cond (s : State) : s.trapLink.cond = s.cond := rfl
@[simp] theorem State.trapLink_reg (s : State) (q : Reg) :
    s.trapLink.reg q = if q = .r7 then (if Config.trapLinksR7 then s.pc else s.reg .r7) else s.reg q :=
  State.setReg_reg s .r7 q _ false

/-! #### acceptKey: R0, COND and the end of the service (R89, R92) -/

@[simp] theorem State.acceptKey_pc (s : State) (k : Byte) : (s.acceptKey k).pc = s.pc := rfl
@[simp] theorem State.acceptKey_mem (s : State) (k : Byte) : (s.acceptKey k).mem = s.mem := rfl
@[simp] theorem State.acceptKey_status (s : State) (k : Byte) : (s.acceptKey k).status = s.status := rfl
@[simp] theorem State.acceptKey_kbdIn (s : State) (k : Byte) : (s.acceptKey k).kbdIn = s.kbdIn := rfl
@[simp] theorem State.acceptKey_conOut (s : State) (k : Byte) : (s.acceptKey k).conOut = s.conOut := rfl
@[simp] theorem State.acceptKey_polls (s : State) (k : Byte) : (s.acceptKey k).polls = s.polls := rfl
@[simp] theorem State.acceptKey_cond (s : State) (k : Byte) : (s.acceptKey k).cond = condOf (zext k) := rfl
@[simp] theorem State.acceptKey_service (s : State) (k : Byte) : (s.acceptKey k).service = .idle := rfl
@[simp] theorem State.acceptKey_reg (s : State) (k : Byte) (q : Reg) :
    (s.acceptKey k).reg q = if q = .r0 then zext k else s.reg q := State.setReg_reg s .r0 q _ true

/-! #### afterRead: a read changes the keyboard side of the state at most (R29, R39) -/

@[simp] theorem State.afterRead_regs (s : State) (a : Word) : (s.afterRead a).regs = s.regs := by
  unfold State.afterRead; split <;> rfl
@[simp] theorem State.afterRead_pc (s : State) (a : Word) : (s.afterRead a).pc = s.pc := by
  unfold State.afterRead; split <;> rfl
@[simp] theorem State.afterRead_cond (s : State) (a : Word) : (s.afterRead a).cond = s.cond := by
  unfold State.afterRead; split <;> rfl
@[simp] theorem State.afterRead_status (s : State) (a : Word) : (s.afterRead a).status = s.status := by
  unfold State.afterRead; split <;> rfl
@[simp] theorem State.afterRead_conOut (s : State) (a : Word) : (s.afterRead a).conOut = s.conOut := by
  unfold State.afterRead; split <;> rfl
@[simp] theorem State.afterRead_service (s : State) (a : Word) : (s.afterRead a).service = s.service := by
  unfold State.afterRead; split <;> rfl
@[simp] theorem State.afterRead_reg (s : State) (a : Word) (q : Reg) : (s.afterRead a).reg q = s.reg q := by
  unfold State.afterRead; split <;> rfl

/-- A read of any address but the keyboard status cell changes nothing (R39). -/
theorem State.afterRead_of_ne {s : State} {a : Word} (h : a ≠ kbsrAddr) : s.afterRead a = s := if_neg h

/-- A read of any address but the keyboard status cell returns the cell (R29). -/
theorem State.readValue_of_ne {s : State} {a : Word} (h : a ≠ kbsrAddr) : s.readValue a = s.mem.read a := by
  rw [State.readValue, State.afterRead_of_ne h]

/-! #### The constructed state (R113) -/

@[simp] theorem State.construct_regs (g : Regs) (k o : List Byte) : (State.construct g k o).regs = g := rfl
@[simp] theorem State.construct_pc (g : Regs) (k o : List Byte) : (State.construct g k o).pc = pcStart := rfl
@[simp] theorem State.construct_cond (g : Regs) (k o : List Byte) : (State.construct g k o).cond = .zro := rfl
@[simp] theorem State.construct_mem (g : Regs) (k o : List Byte) : (State.construct g k o).mem = [] := rfl
@[simp] theorem State.construct_status (g : Regs) (k o : List Byte) : (State.construct g k o).status = .running := rfl
@[simp] theorem State.construct_kbdIn (g : Regs) (k o : List Byte) : (State.construct g k o).kbdIn = k := rfl
@[simp] theorem State.construct_conOut (g : Regs) (k o : List Byte) : (State.construct g k o).conOut = o := rfl
@[simp] theorem State.construct_service (g : Regs) (k o : List Byte) : (State.construct g k o).service = .idle := rfl
@[simp] theorem State.construct_polls (g : Regs) (k o : List Byte) : (State.construct g k o).polls = 0 := rfl

end Sys2Proof.Machine
end

