-- ==== Sys2Proof/Laws/Memory.lean ====
section
/-! SUPPORT. The laws of the memory: read after write, every other cell kept, and the canonical form kept by every
operation. None but the last needs the canonical form. -/

namespace Sys2Proof.Machine

theorem Memory.lookup_erase (m : Memory) (a b : Nat) :
    (m.erase a).lookup b = if b = a then 0#16 else m.lookup b := by
  induction m with
  | nil => simp [Memory.erase, Memory.lookup]
  | cons c rest ih =>
    by_cases hc : c.1 = a
    · rw [Memory.erase, if_pos hc, ih, Memory.lookup]
      by_cases hb : b = a
      · simp [hb]
      · rw [if_neg hb, if_neg hb, if_neg (fun h => hb (h.symm.trans hc))]
    · rw [Memory.erase, if_neg hc, Memory.lookup, ih, Memory.lookup]
      by_cases hb : b = a
      · subst hb; simp [hc]
      · simp [hb]

theorem Memory.lookup_insert (m : Memory) (a b : Nat) (v : Word)  (fresh : ∀ c ∈ m, c.1 ≠ a) : (m.insert a v).lookup b = if b = a then v else m.lookup b := by
  induction m with
  | nil => simp [Memory.insert, Memory.lookup, eq_comm]
  | cons c rest ih =>
    have hc : c.1 ≠ a := fresh c (by simp)
    have ih' := ih (fun d hd => fresh d (by simp [hd]))
    rw [Memory.insert]
    split
    · by_cases hb : b = a
      · subst hb; simp [Memory.lookup]
      · rw [if_neg hb]; simp [Memory.lookup, Ne.symm hb]
    · rw [Memory.lookup, ih', Memory.lookup]
      by_cases hb : b = a
      · subst hb; simp [hc]
      · simp [hb]

/-- Erasing leaves no entry for the address. -/
theorem Memory.erase_fresh (m : Memory) (a : Nat) : ∀ c ∈ m.erase a, c.1 ≠ a := by
  induction m with
  | nil => simp [Memory.erase]
  | cons d rest ih =>
    rw [Memory.erase]
    split
    · exact ih
    · intro c hc
      rcases List.mem_cons.1 hc with rfl | hc
      · assumption
      · exact ih c hc

/-- Read after write: the written cell reads as the value, every other cell as before (R25, R33). -/
@[simp] theorem Memory.read_write (m : Memory) (a b v : Word) :
    (m.write a v).read b = if b = a then v else m.read b := by
  have hab : (b.toNat = a.toNat) = (b = a) := propext BitVec.toNat_inj
  unfold Memory.write Memory.read
  split
  · subst v; rw [Memory.lookup_erase]; simp only [hab]
  · rw [Memory.lookup_insert _ _ _ _ (Memory.erase_fresh m _), Memory.lookup_erase]
    simp only [hab]; split <;> rfl

/-- An empty memory reads as 0x0000 everywhere (R25, R113). -/
@[simp] theorem Memory.read_nil (a : Word) : Memory.read [] a = 0#16 := rfl

theorem Memory.wfFrom_mono {lo lo' : Nat} (h : lo' ≤ lo) {m : Memory} (w : m.wfFrom lo = true) :
    m.wfFrom lo' = true := by
  cases m with
  | nil => rfl
  | cons c rest =>
    simp only [Memory.wfFrom, Bool.and_eq_true, decide_eq_true_eq] at w ⊢
    exact ⟨⟨⟨by omega, w.1.1.2⟩, w.1.2⟩, w.2⟩

theorem Memory.erase_wfFrom {lo : Nat} (a : Nat) {m : Memory} (w : m.wfFrom lo = true) :
    (m.erase a).wfFrom lo = true := by
  induction m generalizing lo with
  | nil => rfl
  | cons c rest ih =>
    simp only [Memory.wfFrom, Bool.and_eq_true, decide_eq_true_eq] at w
    rw [Memory.erase]
    split
    · exact Memory.wfFrom_mono (by omega) (ih w.2)
    · simp only [Memory.wfFrom, Bool.and_eq_true, decide_eq_true_eq]
      exact ⟨w.1, ih w.2⟩

theorem Memory.insert_wfFrom {lo a : Nat} {v : Word} (ha : lo ≤ a) (hm : a < 65536) (hv : v ≠ 0#16) {m : Memory}
    (w : m.wfFrom lo = true) (fresh : ∀ c ∈ m, c.1 ≠ a) : (m.insert a v).wfFrom lo = true := by
  induction m generalizing lo with
  | nil => simp [Memory.insert, Memory.wfFrom, ha, hm, hv]
  | cons c rest ih =>
    have hc : c.1 ≠ a := fresh c (by simp)
    simp only [Memory.wfFrom, Bool.and_eq_true, decide_eq_true_eq] at w
    rw [Memory.insert]
    split
    · simp only [Memory.wfFrom, Bool.and_eq_true, decide_eq_true_eq, bne_iff_ne]
      simp only [bne_iff_ne] at w
      exact ⟨⟨⟨ha, hm⟩, hv⟩, ⟨⟨by omega, w.1.1.2⟩, w.1.2⟩, w.2⟩
    · simp only [Memory.wfFrom, Bool.and_eq_true, decide_eq_true_eq]
      exact ⟨w.1, ih (by omega) w.2 (fun d hd => fresh d (by simp [hd]))⟩

/-- A write keeps the canonical form. -/
theorem Memory.write_wf {m : Memory} (w : m.wf = true) (a v : Word) : (m.write a v).wf = true := by
  unfold Memory.write
  split
  · exact Memory.erase_wfFrom _ w
  · exact Memory.insert_wfFrom (Nat.zero_le _) a.isLt ‹_› (Memory.erase_wfFrom _ w) (Memory.erase_fresh m _)

/-- A poll keeps the canonical form. -/
theorem Memory.afterPoll_wf {m : Memory} (w : m.wf = true) (mode : PollMode) (k : Option Byte) :
    (m.afterPoll mode k).wf = true := by
  cases k with
  | none => exact Memory.write_wf w _ _
  | some k => exact Memory.write_wf (Memory.write_wf w _ _) _ _

/-- A `MemRead` keeps the canonical form. -/
theorem State.afterRead_wf {s : State} (w : s.mem.wf = true) (a : Word) : (s.afterRead a).mem.wf = true := by
  unfold State.afterRead; split
  · exact Memory.afterPoll_wf w _ _
  · exact w

/-- Loading keeps the canonical form. -/
theorem Memory.copyIn_wf {m : Memory} (w : m.wf = true) (a : Word) (ws : List Word) : (m.copyIn a ws).wf = true := by
  induction ws generalizing m a with
  | nil => exact w
  | cons v rest ih => exact ih (Memory.write_wf w a v) _

/-- The constructed memory, and so the reset memory, is in canonical form. -/
theorem State.construct_wf (g : Regs) (k o : List Byte) : (State.construct g k o).mem.wf = true := rfl

end Sys2Proof.Machine
end

