-- ==== Sys2Proof/Laws/Ops.lean ====
section
/-! SUPPORT. What each shared operation can do, said once: the poll, `MemRead`, the services, the load of an image. -/

namespace Sys2Proof.Machine

/-- PollKey answers true only for the byte at the front of `kbd_in` (R32). -/
theorem State.polledKey_some {s : State} {k : Byte} (h : s.polledKey = some k) : ∃ rest, s.kbdIn = k :: rest := by
  unfold State.polledKey at h
  split at h
  · cases h
  · next k' rest e =>
    split at h
    · cases h; exact ⟨rest, e⟩
    · cases h

/-- A found key leaves `kbd_in`; a poll that finds none takes nothing (R32). -/
theorem State.poll_kbdIn (s : State) :
    s.poll.kbdIn = match s.polledKey with | some _ => s.kbdIn.tail | none => s.kbdIn := rfl

/-- With no byte to deliver a poll finds no key (R32). -/
theorem State.polledKey_nil {s : State} (h : s.kbdIn = []) : s.polledKey = none := by simp [State.polledKey, h]

/-- A poll rewrites the two keyboard cells at most (R29). -/
theorem Memory.afterPoll_read_other (m : Memory) (mode : PollMode) (k : Option Byte) {a : Word} (h : a ≠ kbsrAddr)
    (h' : a ≠ kbdrAddr) :
    (m.afterPoll mode k).read a = m.read a := by
  cases k <;> simp [Memory.afterPoll, h, h']

/-- The status cell after a poll (R29, R30). -/
theorem Memory.afterPoll_read_status (m : Memory) (mode : PollMode) (k : Option Byte) :
    (m.afterPoll mode k).read kbsrAddr = statusAfterPoll mode k.isSome (m.read kbsrAddr) := by
  have h : kbsrAddr ≠ kbdrAddr := by decide
  cases k <;> simp [Memory.afterPoll, h]

/-- The data cell after a poll: the key, or what it held (R29, R31). -/
theorem Memory.afterPoll_read_data (m : Memory) (mode : PollMode) (k : Option Byte) :
    (m.afterPoll mode k).read kbdrAddr = match k with | some b => zext b | none => m.read kbdrAddr := by
  have h : kbdrAddr ≠ kbsrAddr := by decide
  cases k <;> simp [Memory.afterPoll, h]

/-- A `MemRead` leaves every cell but the two keyboard cells alone (R29, R39). -/
theorem State.afterRead_read_other (s : State) (b : Word) {a : Word} (h : a ≠ kbsrAddr) (h' : a ≠ kbdrAddr) :
    (s.afterRead b).mem.read a = s.mem.read a := by
  unfold State.afterRead; split
  · exact Memory.afterPoll_read_other _ _ _ h h'
  · rfl

/-- A poll takes bytes only from the front of `kbd_in` (R32). -/
theorem State.poll_kbdIn_suffix (s : State) : s.poll.kbdIn <:+ s.kbdIn := by
  rw [State.poll_kbdIn]
  split
  · exact List.tail_suffix _
  · exact List.suffix_rfl

/-- A `MemRead` takes bytes only from the front of `kbd_in` (R32). -/
theorem State.afterRead_kbdIn_suffix (s : State) (a : Word) : (s.afterRead a).kbdIn <:+ s.kbdIn := by
  unfold State.afterRead; split
  · exact s.poll_kbdIn_suffix
  · exact List.suffix_rfl

/-! ### The services -/

/-- GETC: it accepts the next byte, or it waits and changes nothing else (R89). -/
theorem State.getcService_cases (s : State) :
    (∃ k rest, s.kbdIn = k :: rest ∧ s.getcService = (s.keyTaken rest).acceptKey k) ∨
    (s.kbdIn = [] ∧ s.getcService = s.serviceGoesOn .getc) := by
  unfold State.getcService
  split
  · next k rest e => exact .inl ⟨k, rest, e, rfl⟩
  · next e => exact .inr ⟨e, rfl⟩

/-- IN after its prompt: it echoes and accepts the next byte, or it waits and changes nothing else (R92). -/
theorem State.inService_cases (s : State) :
    (∃ k rest, s.kbdIn = k :: rest ∧ s.inService = ((s.keyTaken rest).writeChar k).acceptKey k) ∨
    (s.kbdIn = [] ∧ s.inService = s.serviceGoesOn .inChar) := by
  unfold State.inService
  split
  · next k rest e => exact .inl ⟨k, rest, e, rfl⟩
  · next e => exact .inr ⟨e, rfl⟩

/-- PUTS at a zero word: the service ends (R91). -/
theorem State.putsService_zero {s : State} {a : Word} (h : s.readValue a = 0#16) :
    s.putsService a = (s.afterRead a).serviceDone := by simp [State.putsService, h]

/-- PUTS at any other word: its low byte is written and the scan goes on (R91). -/
theorem State.putsService_char {s : State} {a : Word} (h : s.readValue a ≠ 0#16) :
    s.putsService a = ((s.afterRead a).writeChar (lowByte (s.readValue a))).serviceGoesOn (.puts (a + 1#16)) := by
  simp [State.putsService, h]

/-- PUTSP at a zero word: the service ends (R93). -/
theorem State.putspService_zero {s : State} {a : Word} (h : s.readValue a = 0#16) :
    s.putspService a = (s.afterRead a).serviceDone := by simp [State.putspService, h]

/-- PUTSP at a word whose high byte alone is zero: the low byte is written and the service ends (R93, D20). -/
theorem State.putspService_last {s : State} {a : Word} (h : s.readValue a ≠ 0#16)
    (h' : highByte (s.readValue a) = 0#8) :
    s.putspService a = ((s.afterRead a).writeChar (lowByte (s.readValue a))).serviceDone := by
  simp [State.putspService, h, h']

/-- PUTSP at any other word: both bytes are written, the low one first, and the scan goes on (R93). -/
theorem State.putspService_pair {s : State} {a : Word} (h : s.readValue a ≠ 0#16)
    (h' : highByte (s.readValue a) ≠ 0#8) :
    s.putspService a = (((s.afterRead a).writeChar (lowByte (s.readValue a))).writeChar
      (highByte (s.readValue a))).serviceGoesOn (.putsp (a + 1#16)) := by
  simp [State.putspService, h, h']

/-- The dispatcher's six services and its one error (R88). -/
theorem State.trapDispatch_cases (s : State) (v : Byte) :
    (v = vecGetc ∧ s.trapDispatch v = s.getcService) ∨
    (v = vecOut ∧ s.trapDispatch v = s.writeChar (lowByte (s.reg .r0))) ∨
    (v = vecPuts ∧ s.trapDispatch v = s.putsService (s.reg .r0)) ∨
    (v = vecIn ∧ s.trapDispatch v = (s.writeChars Config.inPrompt).inService) ∨
    (v = vecPutsp ∧ s.trapDispatch v = s.putspService (s.reg .r0)) ∨
    (v = vecHalt ∧ s.trapDispatch v = s.haltService) ∨
    (isServiceVector v = false ∧ s.trapDispatch v = s.raise (.invalidTrap v s.pc)) := by
  by_cases h1 : v = vecGetc
  · exact .inl ⟨h1, by subst h1; rfl⟩
  by_cases h2 : v = vecOut
  · exact .inr (.inl ⟨h2, by subst h2; rfl⟩)
  by_cases h3 : v = vecPuts
  · exact .inr (.inr (.inl ⟨h3, by subst h3; rfl⟩))
  by_cases h4 : v = vecIn
  · exact .inr (.inr (.inr (.inl ⟨h4, by subst h4; rfl⟩)))
  by_cases h5 : v = vecPutsp
  · exact .inr (.inr (.inr (.inr (.inl ⟨h5, by subst h5; rfl⟩))))
  by_cases h6 : v = vecHalt
  · exact .inr (.inr (.inr (.inr (.inr (.inl ⟨h6, by subst h6; rfl⟩)))))
  · refine .inr (.inr (.inr (.inr (.inr (.inr ⟨?_, ?_⟩)))))
    · simp [isServiceVector, serviceVectors, h1, h2, h3, h4, h5, h6]
    · simp [State.trapDispatch, h1, h2, h3, h4, h5, h6]

/-- A vector that names no service is an InvalidTrap (R88). -/
theorem State.trapDispatch_invalid {s : State} {v : Byte} (h : isServiceVector v = false) :
    s.trapDispatch v = s.raise (.invalidTrap v s.pc) := by
  rcases s.trapDispatch_cases v with ⟨rfl, _⟩ | ⟨rfl, _⟩ | ⟨rfl, _⟩ | ⟨rfl, _⟩ | ⟨rfl, _⟩ | ⟨rfl, _⟩ | ⟨_, e⟩
  · exact absurd h (by decide)
  · exact absurd h (by decide)
  · exact absurd h (by decide)
  · exact absurd h (by decide)
  · exact absurd h (by decide)
  · exact absurd h (by decide)
  · exact e

end Sys2Proof.Machine
end

