-- ==== Sys2Proof/Laws/PerInstr.lean ====
section
/-! SUPPORT. The per-instruction family EncodingRow: the word the encoder writes for a well-formed instruction belongs to
the instruction's own row of the opcode map (R55). -/

namespace Sys2Proof.Laws.EncodingRow

open Sys2Proof Sys2Proof.Machine

/-- The instruction's word belongs to its own row of R55. -/
def Statement (i : Instr) : Prop :=
  i.WellFormed → ∃ row ∈ opcodeTable, row.mnemonic = i.mnemonic ∧ row.covers (encode i) = true

theorem br (n z p : Bool) (off : BitVec 9) : Statement (.br n z p off) := by
  refine fun _ => ⟨⟨.BR, 0x0000#16, 0xF000#16⟩, by decide, rfl, beq_iff_eq.2 ?_⟩
  apply BitVec.eq_of_getElem_eq
  intro i hi
  interval_cases i <;> simp [encode, getElem_field, opBr]

theorem add (dr sr1 sr2 : Reg) : Statement (.add dr sr1 sr2) := by
  refine fun _ => ⟨⟨.ADD, 0x1000#16, 0xF020#16⟩, by decide, rfl, beq_iff_eq.2 ?_⟩
  apply BitVec.eq_of_getElem_eq
  intro i hi
  interval_cases i <;> simp [encode, getElem_field, opAdd]

theorem addi (dr sr1 : Reg) (imm : BitVec 5) : Statement (.addi dr sr1 imm) := by
  refine fun _ => ⟨⟨.ADDi, 0x1020#16, 0xF020#16⟩, by decide, rfl, beq_iff_eq.2 ?_⟩
  apply BitVec.eq_of_getElem_eq
  intro i hi
  interval_cases i <;> simp [encode, getElem_field, opAdd]

theorem ld (dr : Reg) (off : BitVec 9) : Statement (.ld dr off) := by
  refine fun _ => ⟨⟨.LD, 0x2000#16, 0xF000#16⟩, by decide, rfl, beq_iff_eq.2 ?_⟩
  apply BitVec.eq_of_getElem_eq
  intro i hi
  interval_cases i <;> simp [encode, getElem_field, opLd]

theorem st (sr : Reg) (off : BitVec 9) : Statement (.st sr off) := by
  refine fun _ => ⟨⟨.ST, 0x3000#16, 0xF000#16⟩, by decide, rfl, beq_iff_eq.2 ?_⟩
  apply BitVec.eq_of_getElem_eq
  intro i hi
  interval_cases i <;> simp [encode, getElem_field, opSt]

theorem jsrr (base : Reg) : Statement (.jsrr base) := by
  refine fun _ => ⟨⟨.JSRR, 0x4000#16, 0xF800#16⟩, by decide, rfl, beq_iff_eq.2 ?_⟩
  apply BitVec.eq_of_getElem_eq
  intro i hi
  interval_cases i <;> simp [encode, getElem_field, opJsr]

theorem jsr (off : BitVec 11) : Statement (.jsr off) := by
  refine fun _ => ⟨⟨.JSR, 0x4800#16, 0xF800#16⟩, by decide, rfl, beq_iff_eq.2 ?_⟩
  apply BitVec.eq_of_getElem_eq
  intro i hi
  interval_cases i <;> simp [encode, getElem_field, opJsr]

theorem and (dr sr1 sr2 : Reg) : Statement (.and dr sr1 sr2) := by
  refine fun _ => ⟨⟨.AND, 0x5000#16, 0xF020#16⟩, by decide, rfl, beq_iff_eq.2 ?_⟩
  apply BitVec.eq_of_getElem_eq
  intro i hi
  interval_cases i <;> simp [encode, getElem_field, opAnd]

theorem andi (dr sr1 : Reg) (imm : BitVec 5) : Statement (.andi dr sr1 imm) := by
  refine fun _ => ⟨⟨.ANDi, 0x5020#16, 0xF020#16⟩, by decide, rfl, beq_iff_eq.2 ?_⟩
  apply BitVec.eq_of_getElem_eq
  intro i hi
  interval_cases i <;> simp [encode, getElem_field, opAnd]

theorem ldr (dr base : Reg) (off : BitVec 6) : Statement (.ldr dr base off) := by
  refine fun _ => ⟨⟨.LDR, 0x6000#16, 0xF000#16⟩, by decide, rfl, beq_iff_eq.2 ?_⟩
  apply BitVec.eq_of_getElem_eq
  intro i hi
  interval_cases i <;> simp [encode, getElem_field, opLdr]

theorem str (sr base : Reg) (off : BitVec 6) : Statement (.str sr base off) := by
  refine fun _ => ⟨⟨.STR, 0x7000#16, 0xF000#16⟩, by decide, rfl, beq_iff_eq.2 ?_⟩
  apply BitVec.eq_of_getElem_eq
  intro i hi
  interval_cases i <;> simp [encode, getElem_field, opStr]

theorem rti : Statement .rti := by
  refine fun _ => ⟨⟨.RTI, 0x8000#16, 0xF000#16⟩, by decide, rfl, beq_iff_eq.2 ?_⟩
  decide

theorem not (dr sr : Reg) : Statement (.not dr sr) := by
  refine fun _ => ⟨⟨.NOT, 0x9000#16, 0xF000#16⟩, by decide, rfl, beq_iff_eq.2 ?_⟩
  apply BitVec.eq_of_getElem_eq
  intro i hi
  interval_cases i <;> simp [encode, ignoredBits_eq, getElem_field, opNot]

theorem ldi (dr : Reg) (off : BitVec 9) : Statement (.ldi dr off) := by
  refine fun _ => ⟨⟨.LDI, 0xA000#16, 0xF000#16⟩, by decide, rfl, beq_iff_eq.2 ?_⟩
  apply BitVec.eq_of_getElem_eq
  intro i hi
  interval_cases i <;> simp [encode, getElem_field, opLdi]

theorem sti (sr : Reg) (off : BitVec 9) : Statement (.sti sr off) := by
  refine fun _ => ⟨⟨.STI, 0xB000#16, 0xF000#16⟩, by decide, rfl, beq_iff_eq.2 ?_⟩
  apply BitVec.eq_of_getElem_eq
  intro i hi
  interval_cases i <;> simp [encode, getElem_field, opSti]

theorem jmp (base : Reg) : Statement (.jmp base) := by
  refine fun _ => ⟨⟨.JMP, 0xC000#16, 0xF000#16⟩, by decide, rfl, beq_iff_eq.2 ?_⟩
  apply BitVec.eq_of_getElem_eq
  intro i hi
  interval_cases i <;> simp [encode, getElem_field, opJmp]

theorem res : Statement .res := by
  refine fun _ => ⟨⟨.RES, 0xD000#16, 0xF000#16⟩, by decide, rfl, beq_iff_eq.2 ?_⟩
  decide

theorem lea (dr : Reg) (off : BitVec 9) : Statement (.lea dr off) := by
  refine fun _ => ⟨⟨.LEA, 0xE000#16, 0xF000#16⟩, by decide, rfl, beq_iff_eq.2 ?_⟩
  apply BitVec.eq_of_getElem_eq
  intro i hi
  interval_cases i <;> simp [encode, getElem_field, opLea]

theorem trap (v : Byte) : Statement (.trap v) := by
  refine fun _ => ⟨⟨.TRAP, 0xF000#16, 0xF000#16⟩, by decide, rfl, beq_iff_eq.2 ?_⟩
  apply BitVec.eq_of_getElem_eq
  intro i hi
  interval_cases i <;> simp [encode, encodeTrap, getElem_field, opTrap]

theorem trapGetc : Statement .trapGetc := by
  refine fun _ => ⟨⟨.TRAP_GETC, 0xF020#16, 0xF0FF#16⟩, by decide, rfl, beq_iff_eq.2 ?_⟩
  decide

theorem trapOut : Statement .trapOut := by
  refine fun _ => ⟨⟨.TRAP_OUT, 0xF021#16, 0xF0FF#16⟩, by decide, rfl, beq_iff_eq.2 ?_⟩
  decide

theorem trapPuts : Statement .trapPuts := by
  refine fun _ => ⟨⟨.TRAP_PUTS, 0xF022#16, 0xF0FF#16⟩, by decide, rfl, beq_iff_eq.2 ?_⟩
  decide

theorem trapIn : Statement .trapIn := by
  refine fun _ => ⟨⟨.TRAP_IN, 0xF023#16, 0xF0FF#16⟩, by decide, rfl, beq_iff_eq.2 ?_⟩
  decide

theorem trapPutsp : Statement .trapPutsp := by
  refine fun _ => ⟨⟨.TRAP_PUTSP, 0xF024#16, 0xF0FF#16⟩, by decide, rfl, beq_iff_eq.2 ?_⟩
  decide

theorem trapHalt : Statement .trapHalt := by
  refine fun _ => ⟨⟨.TRAP_HALT, 0xF025#16, 0xF0FF#16⟩, by decide, rfl, beq_iff_eq.2 ?_⟩
  decide

end Sys2Proof.Laws.EncodingRow
end

