-- ==== Sys2Proof/Laws/Step.lean ====
section
/-! SUPPORT. What one step can do, said once. -/

namespace Sys2Proof.Machine

/-- Waiting, spelled out. -/
theorem State.waits_iff {s : State} :
    s.waits = true ↔ (s.service = .getc ∨ s.service = .inChar) ∧ s.kbdIn = [] := by
  simp [State.waits]

/-- A step that answers a next state starts in a running machine and is one of three things: a service going on, the PC
bound, or the body of the fetched instruction (R63 to R66, R68). -/
theorem step_next_cases {s t : State} (h : step s = .next t) :
    s.status = .running ∧
      ((s.service ≠ .idle ∧ s.waits = false ∧ t = s.resume) ∨
       (s.service = .idle ∧ s.pc = lastAddr ∧ t = (s.afterRead s.pc).halt .pcBound) ∨
       (s.service = .idle ∧ s.pc ≠ lastAddr ∧
         exec (decode (s.readValue s.pc)) ((s.afterRead s.pc).setPc (s.pc + 1#16)) = .next t)) := by
  unfold step State.cyclePlan at h
  cases hs : s.status with
  | halted why => simp [hs] at h
  | faulted what => simp [hs] at h
  | running =>
    refine ⟨rfl, ?_⟩
    by_cases hv : s.service = .idle
    · by_cases hp : s.pc = lastAddr
      · simp only [hs, hv, if_true, State.fetchPlan, hp] at h
        simp only [hp]
        exact .inr (.inl ⟨hv, trivial, by injection h with h; exact h.symm⟩)
      · simp only [hs, hv, if_true, State.fetchPlan, if_neg hp] at h
        exact .inr (.inr ⟨hv, hp, h⟩)
    · cases hw : s.waits with
      | true => simp [hs, hv, hw] at h
      | false =>
        simp only [hs, if_neg hv, hw] at h
        exact .inl ⟨hv, rfl, by injection h with h; exact h.symm⟩

/-- A waiting machine has no next step (R68). -/
theorem step_waiting {s : State} (h : s.status = .running) (w : s.waits = true) : step s = .fault .waiting := by
  have hv : s.service ≠ .idle := by rcases (State.waits_iff.1 w).1 with e | e <;> simp [e]
  simp [step, State.cyclePlan, h, hv, w]

/-- A service in progress that does not wait goes on (R68, D29). -/
theorem step_service {s : State} (h : s.status = .running) (hv : s.service ≠ .idle) (w : s.waits = false) :
    step s = .next s.resume := by
  simp [step, State.cyclePlan, h, hv, w]

/-- One more step of a run, for any machine, so that no proof unfolds `run`. -/
theorem run_succ_of_step (M : Host.Core) (k : Nat) {s t : M.State} (h : M.step s = .next t) :
    M.run (k + 1) s = M.run k t := by
  rw [Host.Core.run, h]

end Sys2Proof.Machine
end

