-- ==== Sys2Proof/Tests/Slice0.lean ====
section
/-! SUPPORT. The model's own tests: the ill-formed terms the check refuses, words decoded and encoded, one step of each
instruction with results from spec/95_test_vectors.md, and a witness for the hypotheses of each statement that has any. -/

namespace Sys2Proof.Tests

open Sys2Proof Sys2Proof.Machine

/-! ### Helpers -/

/-- The next state, where there is one. -/
def nextOf : Host.Outcome State Fault Refusal → Option State
  | .next t => some t
  | .fault _ => none
  | .refused _ => none

/-- The fault, where there is one. -/
def faultOf : Host.Outcome State Fault Refusal → Option Fault
  | .next _ => none
  | .fault f => some f
  | .refused _ => none

/-- A state with this flag, these registers and these cells. -/
def made (c : Cond) (rs : List (Reg × Word)) (cells : List (Word × Word)) : State :=
  cells.foldl (fun s p => s.memWrite p.1 p.2)
    (rs.foldl (fun s p => s.setReg p.1 p.2 false) { State.reset with cond := c })

/-- The same with input bytes. -/
def typed (s : State) (bytes : List Byte) : State := s.supplyInput bytes

/-- One step of the word `w` at the address `pc`. -/
def ran (pc w : Word) (s : State) : Option State := nextOf (step ((s.setPc pc).placeNextWord w))

/-- What a vector names of a data result: one register, the flag, PC. -/
def data (r : Reg) (s : Option State) : Option (Word × Cond × Word) := s.map fun t => (t.reg r, t.cond, t.pc)

/-! ### WellFormed: `trap v` with a service's vector is the one ill-formed term -/

theorem test_wellFormed_refuses_services :
    ¬ (Instr.trap 0x20#8).WellFormed ∧ ¬ (Instr.trap 0x21#8).WellFormed ∧ ¬ (Instr.trap 0x22#8).WellFormed ∧
    ¬ (Instr.trap 0x23#8).WellFormed ∧ ¬ (Instr.trap 0x24#8).WellFormed ∧ ¬ (Instr.trap 0x25#8).WellFormed := by decide
theorem test_wellFormed_accepts_neighbours : (Instr.trap 0x1F#8).WellFormed ∧ (Instr.trap 0x26#8).WellFormed := by decide

/-! ### Decode: one word per constructor, from the formats of R48 to R54 or the vectors -/

-- 0000 n=1 z=0 p=1 1 0000 0000
theorem test_decode_br : decode 0b0000101100000000#16 = .br true false true 0x100#9 := by decide
-- 0001 ddd=001 sss=010 0 -- ttt=110
theorem test_decode_add : decode 0b0001001010000110#16 = .add .r1 .r2 .r6 := by decide
-- 0001 ddd=101 sss=011 1 iiiii=10001
theorem test_decode_addi : decode 0b0001101011110001#16 = .addi .r5 .r3 0x11#5 := by decide
-- 0010 ddd=001 f=000000010
theorem test_decode_ld : decode 0x2202#16 = .ld .r1 2#9 := by decide
-- 0011 sss=100 f=000000001
theorem test_decode_st : decode 0x3801#16 = .st .r4 1#9 := by decide
-- 0100 0 -- bbb=111 ------, with every ignored bit set
theorem test_decode_jsrr : decode 0b0100011111111111#16 = .jsrr .r7 := by decide
-- 0100 1 f=10000000000
theorem test_decode_jsr : decode 0x4C00#16 = .jsr 0x400#11 := by decide
-- 0101 ddd=110 sss=100 0 -- ttt=011
theorem test_decode_and : decode 0b0101110100000011#16 = .and .r6 .r4 .r3 := by decide
-- 0101 ddd=001 sss=001 1 iiiii=10000
theorem test_decode_andi : decode 0x5270#16 = .andi .r1 .r1 0x10#5 := by decide
-- 0110 ddd=010 bbb=011 f=111111
theorem test_decode_ldr : decode 0x64FF#16 = .ldr .r2 .r3 0x3F#6 := by decide
-- 0111 sss=001 bbb=010 f=000101
theorem test_decode_str : decode 0x7285#16 = .str .r1 .r2 5#6 := by decide
theorem test_decode_rti : decode 0x8FFF#16 = .rti := by decide
-- 1001 ddd=010 sss=101 ------, ignored bits clear
theorem test_decode_not : decode 0b1001010101000000#16 = .not .r2 .r5 := by decide
-- 1010 ddd=001 f=000000000
theorem test_decode_ldi : decode 0xA200#16 = .ldi .r1 0#9 := by decide
-- 1011 sss=011 f=000000011
theorem test_decode_sti : decode 0xB603#16 = .sti .r3 3#9 := by decide
-- 1100 --- bbb=010 ------, ignored bits set
theorem test_decode_jmp : decode 0xCEBF#16 = .jmp .r2 := by decide
theorem test_decode_res : decode 0xD123#16 = .res := by decide
-- 1110 ddd=000 f=111111101
theorem test_decode_lea : decode 0xE1FD#16 = .lea .r0 0x1FD#9 := by decide
theorem test_decode_trap : decode 0xF026#16 = .trap 0x26#8 ∧ decode 0xF000#16 = .trap 0#8 := by decide
theorem test_decode_services :
    decode 0xF020#16 = .trapGetc ∧ decode 0xF021#16 = .trapOut ∧ decode 0xF022#16 = .trapPuts ∧
    decode 0xF023#16 = .trapIn ∧ decode 0xF024#16 = .trapPutsp ∧ decode 0xFF25#16 = .trapHalt := by decide

/-! ### Encode: words of the spec's examples, ignored bits canonical -/

theorem test_encode_operate :
    encode (.add .r0 .r1 .r2) = 0x1042#16 ∧ encode (.addi .r0 .r0 0x1F#5) = 0x103F#16 ∧
    encode (.and .r0 .r1 .r2) = 0x5042#16 ∧ encode (.andi .r1 .r1 0x10#5) = 0x5270#16 ∧
    encode (.not .r0 .r1) = 0x907F#16 := by decide
theorem test_encode_control :
    encode (.br false true false 5#9) = 0x0405#16 ∧ encode (.jmp .r7) = 0xC1C0#16 ∧ encode (.jsr 10#11) = 0x480A#16 ∧
    encode (.jsrr .r3) = 0x40C0#16 := by decide
theorem test_encode_memory :
    encode (.ld .r1 2#9) = 0x2202#16 ∧ encode (.ldi .r1 0#9) = 0xA200#16 ∧ encode (.ldr .r2 .r3 0x3F#6) = 0x64FF#16 ∧
    encode (.lea .r0 0x1FD#9) = 0xE1FD#16 ∧ encode (.st .r4 1#9) = 0x3801#16 ∧ encode (.sti .r1 0#9) = 0xB200#16 ∧
    encode (.str .r1 .r2 5#6) = 0x7285#16 := by decide
theorem test_encode_trap :
    encode .trapGetc = 0xF020#16 ∧ encode .trapOut = 0xF021#16 ∧ encode .trapPuts = 0xF022#16 ∧
    encode .trapIn = 0xF023#16 ∧ encode .trapPutsp = 0xF024#16 ∧ encode .trapHalt = 0xF025#16 ∧
    encode (.trap 0x26#8) = 0xF026#16 ∧ encode .rti = 0x8000#16 ∧ encode .res = 0xD000#16 := by decide

/-- The host's two definitions on one row: the word is read by the decoder, and the very next step runs it (V4). -/
theorem test_withFetchWord :
    decodeTableWord 16 0x1022 = some (.addi .r0 .r0 2#5) ∧ decodeTableWord 32 0x1022 = none ∧
    data .r0 (nextOf (step (State.reset.withFetchWord 16 0x1022))) = some (2#16, .pos, 0x3001#16) := by decide

/-! ### Sign extension at its boundary values (V2) -/

theorem test_sext_boundaries :
    sext 0x0F#5 = 0x000F#16 ∧ sext 0x10#5 = 0xFFF0#16 ∧ sext 0x1F#6 = 0x001F#16 ∧ sext 0x20#6 = 0xFFE0#16 ∧
    sext 0x0FF#9 = 0x00FF#16 ∧ sext 0x100#9 = 0xFF00#16 ∧ sext 0x3FF#11 = 0x03FF#16 ∧ sext 0x400#11 = 0xFC00#16 := by decide

/-! ### F-OP -/

theorem test_add_overflow :
    data .r0 (ran 0x3000#16 0x1042#16 (made .zro [(.r1, 0x7FFF#16), (.r2, 1#16)] [])) = some (0x8000#16, .neg, 0x3001#16) := by
  decide
theorem test_add_same_register :
    data .r3 (ran 0x3000#16 0x16C3#16 (made .pos [(.r3, 0x8000#16)] [])) = some (0#16, .zro, 0x3001#16) := by decide
theorem test_addi_minus_sixteen :
    data .r0 (ran 0x3000#16 0x1030#16 (made .pos [(.r0, 0x10#16)] [])) = some (0#16, .zro, 0x3001#16) := by decide
theorem test_addi_minus_one :
    data .r0 (ran 0x3000#16 0x103F#16 (made .zro [] [])) = some (0xFFFF#16, .neg, 0x3001#16) := by decide
theorem test_and :
    data .r0 (ran 0x3000#16 0x5042#16 (made .zro [(.r1, 0x8F00#16), (.r2, 0xF0F0#16)] [])) =
      some (0x8000#16, .neg, 0x3001#16) := by decide
theorem test_andi_clear :
    data .r5 (ran 0x3000#16 0x5B60#16 (made .neg [(.r5, 0xFFFF#16)] [])) = some (0#16, .zro, 0x3001#16) := by decide
theorem test_andi_minus_sixteen :
    data .r1 (ran 0x3000#16 0x5270#16 (made .zro [(.r1, 0x8001#16)] [])) = some (0x8000#16, .neg, 0x3001#16) := by decide
theorem test_not :
    data .r2 (ran 0x3000#16 0x94BF#16 (made .zro [(.r2, 0x8000#16)] [])) = some (0x7FFF#16, .pos, 0x3001#16) := by decide

/-! ### F-CT -/

theorem test_br_taken : (ran 0x3000#16 0x0405#16 (made .zro [] [])).map (·.pc) = some 0x3006#16 := by decide
theorem test_br_untested_flag :
    (ran 0x3000#16 0x0405#16 (made .pos [] [])).map (·.pc) = some 0x3001#16 ∧
    (ran 0x3000#16 0x0900#16 (made .neg [] [])).map (·.pc) = some 0x2F01#16 ∧
    (ran 0x3000#16 0x02FF#16 (made .pos [] [])).map (·.pc) = some 0x3100#16 ∧
    (ran 0x3000#16 0x0005#16 (made .zro [] [])).map (·.pc) = some 0x3001#16 := by decide
theorem test_jmp_ignored_bits :
    (ran 0x3000#16 0xCEBF#16 (made .neg [(.r2, 0x4000#16)] [])).map (fun t => (t.pc, t.cond)) = some (0x4000#16, .neg) := by
  decide
theorem test_jsr_to_the_top :
    data .r7 (ran 0xFBFF#16 0x4BFF#16 (made .zro [] [])) = some (0xFC00#16, .zro, 0xFFFF#16) := by decide
theorem test_jsrr_r7 :
    data .r7 (ran 0x3000#16 0x41C0#16 (made .zro [(.r7, 0x5000#16)] [])) = some (0x3001#16, .zro, 0x3001#16) := by decide

/-! ### F-LS -/

theorem test_ld_negative :
    data .r1 (ran 0x3000#16 0x2202#16 (made .zro [] [(0x3003#16, 0x8000#16)])) = some (0x8000#16, .neg, 0x3001#16) := by
  decide
theorem test_ldi_source_example :
    data .r0 (ran 0x2FFF#16 0xA000#16 (made .zro [] [(0x3000#16, 0x3001#16), (0x3001#16, 0x1234#16)])) =
      some (0x1234#16, .pos, 0x3000#16) := by decide
theorem test_ldr_base_is_destination :
    data .r3 (ran 0x3000#16 0x66DF#16 (made .zro [(.r3, 0x4000#16)] [(0x401F#16, 0x7777#16)])) =
      some (0x7777#16, .pos, 0x3001#16) := by decide
theorem test_ldr_wraps :
    data .r0 (ran 0x3000#16 0x6041#16 (made .zro [(.r1, 0xFFFF#16)] [(0#16, 0x42#16)])) = some (0x42#16, .pos, 0x3001#16) := by
  decide
theorem test_lea_sets_cond : data .r0 (ran 0x8000#16 0xE000#16 (made .zro [] [])) = some (0x8001#16, .neg, 0x8001#16) := by
  decide
theorem test_st :
    (ran 0x3000#16 0x3801#16 (made .neg [(.r4, 0xBEEF#16)] [])).map (fun t => (t.mem.read 0x3002#16, t.cond)) =
      some (0xBEEF#16, .neg) := by decide
theorem test_sti :
    (ran 0x3000#16 0xB200#16 (made .zro [(.r1, 0x41#16)] [(0x3001#16, 0x4000#16)])).map (·.mem.read 0x4000#16) =
      some 0x41#16 := by decide
theorem test_str_base_is_source :
    (ran 0x3000#16 0x74A0#16 (made .zro [(.r2, 0x4020#16)] [])).map (·.mem.read 0x4000#16) = some 0x4020#16 := by decide
theorem test_str_to_the_status_cell :
    (ran 0x3000#16 0x7040#16 (made .zro [(.r0, 0x1234#16), (.r1, 0xFE00#16)] [])).map
      (fun t => (t.mem.read 0xFE00#16, t.polls)) = some (0x1234#16, 0) := by decide

/-! ### F-MM -/

theorem test_poll_modes :
    statusAfterPoll .bit15Only false 0x8005#16 = 0x0005#16 ∧ statusAfterPoll .wholeWord false 0x8005#16 = 0#16 ∧
    statusAfterPoll .bit15Only true 0x0005#16 = 0x8005#16 ∧ statusAfterPoll .wholeWord true 0x0005#16 = 0x8000#16 := by
  decide
theorem test_poll_stores_the_key :
    (Memory.afterPoll [(0xFE00, 5#16)] .bit15Only (some 0x41#8)) = [(0xFE00, 0x8005#16), (0xFE02, 0x41#16)] ∧
    (Memory.afterPoll [(0xFE00, 0x8005#16), (0xFE02, 7#16)] .wholeWord none) = [(0xFE02, 7#16)] := by decide
theorem test_data_cell_does_not_poll :
    (ran 0x3000#16 0xA000#16 (typed (made .zro [] [(0x3001#16, 0xFE02#16), (0xFE02#16, 0x41#16)]) [0x7A#8])).map
      (fun t => (t.reg .r0, t.cond, t.kbdIn, t.polls)) = some (0x41#16, .pos, [0x7A#8], 0) := by decide

/-! ### F-TR -/

theorem test_getc :
    (ran 0x3000#16 0xF020#16 (typed (made .zro [] []) [0x41#8])).map
      (fun t => (t.reg .r0, t.cond, t.kbdIn, t.conOut, t.pc)) = some (0x41#16, .pos, [], [], 0x3001#16) := by decide
theorem test_getc_nul :
    (ran 0x3000#16 0xF020#16 (typed (made .pos [] []) [0#8])).map (fun t => (t.reg .r0, t.cond)) = some (0#16, .zro) := by
  decide
theorem test_out :
    (ran 0x3000#16 0xF021#16 (made .neg [(.r0, 0x1241#16)] [])).map (fun t => (t.conOut, t.reg .r0, t.cond)) =
      some ([0x41#8], 0x1241#16, .neg) := by decide
theorem test_puts_high_bits_only :
    (ran 0x3000#16 0xF022#16 (made .zro [(.r0, 0xFFFF#16)] [(0xFFFF#16, 0x100#16)])).map (fun t => (t.conOut, t.service)) =
      some ([0#8], .puts 0#16) := by decide
theorem test_puts_empty :
    (ran 0x3000#16 0xF022#16 (made .zro [(.r0, 0x4000#16)] [])).map (fun t => (t.conOut, t.service)) = some ([], .idle) := by
  decide
/-- The echoed byte is the last of `con_out` and follows the prompt, whatever the prompt is. -/
theorem test_in :
    (∃ t, ran 0x3000#16 0xF023#16 (typed (made .zro [] []) [0x79#8]) = some t ∧ t.reg .r0 = 0x79#16 ∧ t.cond = .pos ∧
      t.conOut = [] ++ Config.inPrompt ++ [0x79#8]) := ⟨_, rfl, by decide, by decide, rfl⟩
theorem test_putsp_pair :
    (ran 0x3000#16 0xF024#16 (made .zro [(.r0, 0x4000#16)] [(0x4000#16, 0x6548#16)])).map (fun t => (t.conOut, t.service)) =
      some ([0x48#8, 0x65#8], .putsp 0x4001#16) := by decide
theorem test_putsp_last :
    (ran 0x3000#16 0xF024#16 (made .zro [(.r0, 0x4001#16)] [(0x4001#16, 0x21#16), (0x4002#16, 0x4141#16)])).map
      (fun t => (t.conOut, t.service)) = some ([0x21#8], .idle) := by decide
theorem test_halt :
    (ran 0x3000#16 0xFF25#16 (made .zro [] [])).map (fun t => (t.status, t.pc)) = some (.halted .haltTrap, 0x3001#16) := by
  decide
theorem test_trap_invalid :
    (ran 0x3000#16 0xF026#16 (made .zro [] [])).map (fun t => (t.status, t.pc)) =
      some (.faulted (.invalidTrap 0x26#8 0x3001#16), 0x3001#16) := by decide

/-! ### F-RS -/

theorem test_rti :
    (ran 0x3000#16 0x8000#16 (made .zro [] [])).map (fun t => (t.status, t.pc)) =
      some (.faulted (.invalidOpcode 0x8#4 0x3001#16), 0x3001#16) := by decide
theorem test_res :
    (ran 0x4000#16 0xD123#16 (made .zro [] [])).map (fun t => (t.status, t.pc)) =
      some (.faulted (.invalidOpcode 0xD#4 0x4001#16), 0x4001#16) := by decide
theorem test_fetch_at_the_top :
    (ran 0xFFFF#16 0x1021#16 (made .zro [] [])).map (fun t => (t.status, t.pc, t.reg .r0)) =
      some (.halted .pcBound, 0xFFFF#16, 0#16) ∧
    (ran 0xFFFF#16 0x8000#16 (made .zro [] [])).map (·.status) = some (.halted .pcBound) := by decide
theorem test_step_of_an_ended_state :
    faultOf (step { State.reset with status := .halted .haltTrap }) = some (.ended .haltTrap) ∧
    faultOf (step { State.reset with status := .faulted (.invalidTrap 0x26#8 0x3001#16) }) =
      some (.fatal (.invalidTrap 0x26#8 0x3001#16)) := by decide

/-- A waiting GETC has no next step, and the byte that arrives completes it (R68). -/
theorem test_waiting :
    faultOf (step { State.reset with service := .getc }) = some .waiting ∧
    (nextOf (step (typed { State.reset with service := .getc } [0x41#8]))).map (fun t => (t.reg .r0, t.service)) =
      some (0x41#16, .idle) := by decide

/-- The host sees nothing inside a TRAP's step (R68). -/
theorem test_inspect_between_steps_only :
    State.reset.inspectCell 0#16 = some 0#16 ∧ { State.reset with service := .inChar }.inspectCell 0#16 = none := by decide

/-! ### Witnesses: a concrete case for the hypotheses of each statement that has any, clause by clause. A clause whose
hypothesis is `exec i s = .next t` is met with the `t` that the equation names. -/

open Sys2Proof.Claims

/-- The rows' hypotheses `w &&& mask = bits`, each at a word with every bit outside the mask set. -/
theorem witness_rowDecodes :
    0x0FFF#16 &&& 0xF000#16 = 0x0000#16 ∧ 0x1FDF#16 &&& 0xF020#16 = 0x1000#16 ∧ 0x1FFF#16 &&& 0xF020#16 = 0x1020#16 ∧
    0x2FFF#16 &&& 0xF000#16 = 0x2000#16 ∧ 0x3FFF#16 &&& 0xF000#16 = 0x3000#16 ∧ 0x47FF#16 &&& 0xF800#16 = 0x4000#16 ∧
    0x4FFF#16 &&& 0xF800#16 = 0x4800#16 ∧ 0x5FDF#16 &&& 0xF020#16 = 0x5000#16 ∧ 0x5FFF#16 &&& 0xF020#16 = 0x5020#16 ∧
    0x6FFF#16 &&& 0xF000#16 = 0x6000#16 ∧ 0x7FFF#16 &&& 0xF000#16 = 0x7000#16 ∧ 0x8FFF#16 &&& 0xF000#16 = 0x8000#16 ∧
    0x9FFF#16 &&& 0xF000#16 = 0x9000#16 ∧ 0xAFFF#16 &&& 0xF000#16 = 0xA000#16 ∧ 0xBFFF#16 &&& 0xF000#16 = 0xB000#16 ∧
    0xCFFF#16 &&& 0xF000#16 = 0xC000#16 ∧ 0xDFFF#16 &&& 0xF000#16 = 0xD000#16 ∧ 0xEFFF#16 &&& 0xF000#16 = 0xE000#16 ∧
    0xFFFF#16 &&& 0xF000#16 = 0xF000#16 ∧ 0xFF20#16 &&& 0xF0FF#16 = 0xF020#16 ∧ 0xFF21#16 &&& 0xF0FF#16 = 0xF021#16 ∧
    0xFF22#16 &&& 0xF0FF#16 = 0xF022#16 ∧ 0xFF23#16 &&& 0xF0FF#16 = 0xF023#16 ∧ 0xFF24#16 &&& 0xF0FF#16 = 0xF024#16 ∧
    0xFF25#16 &&& 0xF0FF#16 = 0xF025#16 := by decide

theorem witness_DecodeAfterEncodeIsIdentity :
    (Instr.trap 0xFF#8).WellFormed ∧ (Instr.trap 0#8).WellFormed ∧ (Instr.jsr 0x400#11).WellFormed := by decide

theorem witness_EveryWordDecodes :
    (ignoredBits (decode 0x907F#16)).getLsbD 6 = false ∧
    ∃ t, exec .rti State.reset = .next t ∧ State.reset.status = .running ∧
      t.status = .faulted (.invalidOpcode 0x8#4 0x3000#16) := ⟨by decide, _, rfl, rfl, rfl⟩

/-- HALT's word lies in two rows, and its own has more mask bits. -/
theorem witness_DecoderFollowsOpcodeMap :
    (⟨.TRAP_HALT, 0xF025#16, 0xF0FF#16⟩ : OpcodeRow) ∈ opcodeTable ∧
    (⟨.TRAP_HALT, 0xF025#16, 0xF0FF#16⟩ : OpcodeRow).covers 0xFF25#16 = true ∧
    (⟨.TRAP, 0xF000#16, 0xF000#16⟩ : OpcodeRow).covers 0xFF25#16 = true ∧
    ∀ other ∈ opcodeTable, other.covers 0xFF25#16 = true → maskBits other.mask ≤ maskBits 0xF0FF#16 := by decide

theorem witness_IgnoredBitsDoNotMatter :
    ∀ k, (ignoredBits (decode 0x1042#16)).getLsbD k = false → (0x105A#16).getLsbD k = (0x1042#16).getLsbD k := by
  intro k
  by_cases h : k < 16
  · have := (by decide : ∀ k : Fin 16, (ignoredBits (decode 0x1042#16)).getLsbD k = false →
      (0x105A#16).getLsbD k = (0x1042#16).getLsbD k)
    exact this ⟨k, h⟩
  · intro _
    rw [BitVec.getLsbD_of_ge _ _ (by omega), BitVec.getLsbD_of_ge _ _ (by omega)]

/-- The widths at the ends of the range, and one offset of each width the machine uses. -/
theorem witness_ExtensionsFollowTheirFormulas :
    (sext 1#1).toNat = sextNat 1 1 ∧ (sext 0x8000#16).toNat = sextNat 16 0x8000 ∧
    sextNat 5 0x10 = 0xFFF0 ∧ sextNat 6 0x20 = 0xFFE0 ∧ sextNat 9 0x100 = 0xFF00 ∧ sextNat 11 0x3FF = 0x3FF := by decide

/-- Idle running states below the top, at the top and at the status cell. -/
theorem witness_StepRunsTheDecodedInstruction :
    (State.reset.setPc 0xFFFE#16).status = .running ∧ (State.reset.setPc 0xFFFE#16).service = .idle ∧
    (State.reset.setPc 0xFFFE#16).pc ≠ 0xFFFF#16 ∧ (State.reset.setPc 0xFFFE#16).pc ≠ kbsrAddr ∧
    (State.reset.setPc 0xFFFF#16).pc = 0xFFFF#16 ∧ (State.reset.setPc 0xFE00#16).pc = kbsrAddr := by decide

/-- A running state inside each service. -/
def inside (v : Service) : State := { State.reset with service := v }

theorem witness_ServiceInProgressGoesOn :
    (typed (inside .getc) [0#8]).status = .running ∧ (typed (inside .getc) [0#8]).service ≠ .idle ∧
    (typed (inside .getc) [0#8]).waits = false ∧
    ((inside (.puts 0xFFFF#16)).service ≠ .idle ∧ (inside (.puts 0xFFFF#16)).waits = false) ∧
    (inside (.putsp 0#16)).service ≠ .idle ∧ (inside (.putsp 0#16)).waits = false := by decide

theorem witness_PcBoundEndsTheRunAtTheTop :
    (State.reset.setPc 0xFFFF#16).status = .running ∧ (State.reset.setPc 0xFFFF#16).service = .idle ∧
    (State.reset.setPc 0xFFFF#16).pc = 0xFFFF#16 := by decide

theorem witness_EndedStatesHaveNoStep :
    (∃ t, step State.reset = .next t) ∧ ({ State.reset with status := .halted .pcBound } : State).status = .halted .pcBound ∧
    ({ State.reset with status := .faulted (.invalidRegister 10) } : State).status = .faulted (.invalidRegister 10) :=
  ⟨⟨_, rfl⟩, rfl, rfl⟩

/-- A running state that does not wait, and one that does. -/
theorem witness_RunningStatesHaveAStep :
    State.reset.status = .running ∧ State.reset.service = .idle ∧
    (inside .inChar).status = .running ∧ (inside .inChar).service = .inChar ∧ (inside .inChar).kbdIn = [] := by decide

/-- JSRR R7, a step below the top, a step at the top and a step inside a service. -/
theorem witness_PcChangesOnlyAsListed :
    (∃ t, exec (.jsrr .r7) State.reset = .next t) ∧
    (State.reset.status = .running ∧ State.reset.service = .idle ∧ State.reset.pc ≠ 0xFFFF#16) ∧
    (∃ t, (State.reset.setPc 0xFFFF#16).service = .idle ∧ (State.reset.setPc 0xFFFF#16).pc = 0xFFFF#16 ∧
      step (State.reset.setPc 0xFFFF#16) = .next t) ∧
    ∃ t, (inside (.puts 0#16)).service ≠ .idle ∧ step (inside (.puts 0#16)) = .next t :=
  ⟨⟨_, rfl⟩, by decide, ⟨_, rfl, rfl, rfl⟩, ⟨_, by decide, rfl⟩⟩

theorem witness_CondChangesOnlyAsListed :
    (∃ t, Instr.trapGetc.WellFormed ∧ exec .trapGetc (typed State.reset [0#8]) = .next t) ∧
    (∃ t, (State.reset.setPc 0xFFFF#16).service = .idle ∧ (State.reset.setPc 0xFFFF#16).pc = 0xFFFF#16 ∧
      step (State.reset.setPc 0xFFFF#16) = .next t) ∧
    (∃ t, (typed (inside .inChar) [1#8]).service ≠ .idle ∧ (typed (inside .inChar) [1#8]).kbdIn ≠ [] ∧
      step (typed (inside .inChar) [1#8]) = .next t) ∧
    ∃ t, (∀ n z p off, Instr.lea .r0 1#9 ≠ .br n z p off) ∧ exec (.lea .r0 1#9) State.reset = .next t :=
  ⟨⟨_, rfl, rfl⟩, ⟨_, rfl, rfl, rfl⟩, ⟨_, by decide, by decide, rfl⟩, ⟨_, by simp, rfl⟩⟩

theorem witness_StatusChangesOnlyAsListed :
    (∃ t, (Instr.trap 0x26#8).WellFormed ∧ exec (.trap 0x26#8) State.reset = .next t) ∧
    (∃ t, (State.reset.setPc 0xFFFF#16).service = .idle ∧ (State.reset.setPc 0xFFFF#16).pc = 0xFFFF#16 ∧
      step (State.reset.setPc 0xFFFF#16) = .next t) ∧
    ∃ t, (inside (.putsp 0#16)).service ≠ .idle ∧ step (inside (.putsp 0#16)) = .next t :=
  ⟨⟨_, by decide, rfl⟩, ⟨_, rfl, rfl, rfl⟩, ⟨_, by decide, rfl⟩⟩

/-- A stored cell, a cell not stored to, and an instruction that reads the status cell with a cell it does not touch. -/
theorem witness_OnlyStoredAndPolledCellsChange :
    (∃ t, (Instr.st .r1 0#9).WellFormed ∧ exec (.st .r1 0#9) State.reset = .next t) ∧
    storeOf (.st .r1 0#9) State.reset = some (0x3000#16, .r1) ∧
    (∀ sr, storeOf (.st .r1 0#9) State.reset ≠ some (0x3001#16, sr)) ∧
    (kbsrAddr ∈ readsOf (.ldr .r1 .r2 0#6) (made .zro [(.r2, 0xFE00#16)] []) ∧
      0xFE01#16 ≠ kbsrAddr ∧ 0xFE01#16 ≠ kbdrAddr) :=
  ⟨⟨_, rfl, rfl⟩, by decide, by simp [storeOf]; decide, by decide⟩

theorem witness_ConsoleStreamsOnlyMoveForward :
    ∃ t, step (typed ((State.reset.setPc 0x3000#16).placeNextWord 0xF020#16) [1#8]) = .next t := ⟨_, rfl⟩

theorem witness_InvariantIsKeptByEveryStep :
    (made .neg [] [(0#16, 1#16), (0xFFFF#16, 0x8000#16)]).Inv ∧
    ∃ t, step (made .neg [] [(0#16, 1#16), (0xFFFF#16, 0x8000#16)]) = .next t := ⟨by decide, _, rfl⟩

/-- RTI, and an invalid TRAP. -/
theorem witness_FatalErrorsArePrecise :
    (∃ t, Instr.rti.WellFormed ∧ State.reset.status = .running ∧ exec .rti State.reset = .next t ∧
      t.status = .faulted (.invalidOpcode 0x8#4 0x3000#16)) ∧
    ∃ t, (Instr.trap 0x1F#8).WellFormed ∧ State.reset.status = .running ∧ exec (.trap 0x1F#8) State.reset = .next t ∧
      t.status = .faulted (.invalidTrap 0x1F#8 0x3000#16) :=
  ⟨⟨_, rfl, rfl, rfl, rfl⟩, ⟨_, by decide, rfl, rfl, by decide⟩⟩

/-- An idle state, a fetch at the top, and a string read beside the status cell. -/
theorem witness_UnreadInputIsNotObserved :
    (State.reset.status = .running ∧ readsNoInput State.reset) ∧ readsNoInput (State.reset.setPc 0xFFFF#16) ∧
    readsNoInput (inside (.puts 0xFE01#16)) ∧ readsNoInput (inside (.putsp 0xFE02#16)) := by
  have h : State.reset.service = .idle := rfl
  have h' : (State.reset.setPc 0xFFFF#16).service = .idle := rfl
  refine ⟨⟨rfl, ?_⟩, ?_, ?_, ?_⟩ <;> simp only [readsNoInput, inside, h, h'] <;> decide

/-- ST R1, #0, whose target is the next word (95_test_vectors.md, program P6). -/
theorem witness_StoredWordIsFetchedNext :
    storeOf (.st .r1 0#9) (made .zro [(.r1, 0xF025#16)] []) = some ((made .zro [(.r1, 0xF025#16)] []).pc, .r1) ∧
    (made .zro [(.r1, 0xF025#16)] []).status = .running ∧ (made .zro [(.r1, 0xF025#16)] []).service = .idle ∧
    (made .zro [(.r1, 0xF025#16)] []).pc ≠ 0xFFFF#16 ∧ (made .zro [(.r1, 0xF025#16)] []).pc ≠ kbsrAddr ∧
    ∃ t, exec (.st .r1 0#9) (made .zro [(.r1, 0xF025#16)] []) = .next t :=
  ⟨by decide, rfl, rfl, by decide, by decide, _, rfl⟩

/-- A boundary, the first index that names no register (the sentinel COUNT), and a state inside a TRAP's step. -/
theorem witness_RegisterFileHasTenIdentities :
    State.reset.service = .idle ∧ 10 ≤ 10 ∧ (inside (.puts 0#16)).service ≠ .idle := by decide

/-- An address that is not the status cell, and a state with a byte for the poll. -/
theorem witness_MemReadPollsAtTheStatusCell : 0xFE02#16 ≠ kbsrAddr ∧ (typed State.reset [0x41#8]).kbdIn ≠ [] := by decide

theorem witness_MemWriteStoresOneCell : 0xFE00#16 ≠ 0xFE02#16 := by decide

/-- An image that ends at 0xFFFF, a cell before it, and an image that is one word too long. -/
theorem witness_ImageLoadWritesOnlyItsCells :
    (0xFFFE#16).toNat + [1#16, 2#16].length ≤ 65536 ∧ 1 < [1#16, 2#16].length ∧ (0xFFFD#16).toNat < (0xFFFE#16).toNat ∧
    (0x3000#16).toNat + [1#16].length ≤ (0x3001#16).toNat ∧ 65536 < (0xFFFF#16).toNat + [1#16, 2#16].length := by decide

/-- Vectors just below and just above the services, and the ends of the range. -/
theorem witness_TrapDispatch :
    (0x1F#8).toNat < 0x20 ∧ 0x25 < (0x26#8).toNat ∧ (0x00#8).toNat < 0x20 ∧ 0x25 < (0xFF#8).toNat := by decide

theorem witness_GetcResult : (typed State.reset [0#8, 1#8]).kbdIn = 0#8 :: [1#8] ∧ State.reset.kbdIn = [] := by decide
theorem witness_InResult : (typed State.reset [0xFF#8]).kbdIn = 0xFF#8 :: [] ∧ State.reset.kbdIn = [] := by decide

theorem witness_PutsTakesOneWordAtATime :
    (inside (.puts 0xFFFF#16)).status = .running ∧ (inside (.puts 0xFFFF#16)).service = .puts 0xFFFF#16 := by decide
theorem witness_PutspTakesOneWordAtATime :
    (inside (.putsp 0xFE00#16)).status = .running ∧ (inside (.putsp 0xFE00#16)).service = .putsp 0xFE00#16 := by decide

/-- "AB" from 0xFFFF, wrapping to 0x0000 (F-TR). -/
def abState : State := made .zro [(.r0, 0xFFFF#16)] [(0xFFFF#16, 0x41#16), (0#16, 0x42#16)]

theorem abState_mem : abState.mem = [(0, 0x42#16), (0xFFFF, 0x41#16)] := by decide
theorem abState_r0 : abState.reg .r0 = 0xFFFF#16 := by decide

/-- "He!" (F-TR): one full word and a last word with a zero high byte. -/
def heState : State := made .zro [(.r0, 0x4000#16)] [(0x4000#16, 0x6548#16), (0x4001#16, 0x0021#16)]

theorem heState_mem : heState.mem = [(0x4000, 0x6548#16), (0x4001, 0x0021#16)] := by decide
theorem heState_r0 : heState.reg .r0 = 0x4000#16 := by decide

/-- "AB", and the empty string. -/
theorem witness_PutsWritesTheWholeString :
    abState.status = .running ∧ (∀ w ∈ [0x41#16, 0x42#16], w ≠ 0#16) ∧
    (∀ (n : Nat) (h : n < [0x41#16, 0x42#16].length),
      abState.mem.read (BitVec.ofNat 16 ((abState.reg .r0).toNat + n)) = [0x41#16, 0x42#16][n]) ∧
    abState.mem.read (BitVec.ofNat 16 ((abState.reg .r0).toNat + [0x41#16, 0x42#16].length)) = 0#16 ∧
    (∀ n, n ≤ [0x41#16, 0x42#16].length → BitVec.ofNat 16 ((abState.reg .r0).toNat + n) ≠ kbsrAddr) ∧
    State.reset.mem.read (BitVec.ofNat 16 ((State.reset.reg .r0).toNat + ([] : List Word).length)) = 0#16 := by
  refine ⟨by decide, by simp, ?_, by decide, ?_, by decide⟩ <;> intro n h
  · rw [abState_mem, abState_r0]
    match n, h with
    | 0, _ => rfl
    | 1, _ => rfl
  · rw [abState_r0]
    match n, h with
    | 0, _ => decide
    | 1, _ => decide
    | 2, _ => decide

theorem witness_PutspWritesThePackedString :
    heState.status = .running ∧ (∀ w ∈ [0x6548#16], byteField w 8 ≠ 0#8) ∧ byteField 0x0021#16 8 = 0#8 ∧
    (∀ (n : Nat) (h : n < [0x6548#16].length),
      heState.mem.read (BitVec.ofNat 16 ((heState.reg .r0).toNat + n)) = [0x6548#16][n]) ∧
    heState.mem.read (BitVec.ofNat 16 ((heState.reg .r0).toNat + [0x6548#16].length)) = 0x0021#16 ∧
    (∀ n, n ≤ [0x6548#16].length → BitVec.ofNat 16 ((heState.reg .r0).toNat + n) ≠ kbsrAddr) := by
  refine ⟨by decide, by simp [byteField], by decide, ?_, by decide, ?_⟩ <;> intro n h
  · rw [heState_mem, heState_r0]
    match n, h with
    | 0, _ => rfl
  · rw [heState_r0]
    match n, h with
    | 0, _ => decide
    | 1, _ => decide

theorem witness_WaitingServiceEndsWithTheByte :
    ((inside .getc).status = .running ∧ (inside .getc).service = .getc ∧ (inside .getc).kbdIn = []) ∧
    (typed (inside .getc) [7#8]).kbdIn = 7#8 :: [] ∧
    ((inside .inChar).service = .inChar ∧ (inside .inChar).kbdIn = []) ∧
    (typed (inside .inChar) [0#8]).kbdIn = 0#8 :: [] := by decide

theorem witness_RtiIsFatal : ∃ t, exec .rti State.reset = .next t := ⟨_, rfl⟩
theorem witness_ResIsFatal : ∃ t, exec .res State.reset = .next t := ⟨_, rfl⟩

end Sys2Proof.Tests
end

section
/-! The extensions as numbers (R11) and the sums of the addressing modes over them (R87), at every width up to 16. -/

namespace Sys2Proof.Machine

open Sys2Proof.Claims

/-- The sign bit by R11's reading of it, `v[N-1]`. -/
theorem msb_eq_decide_div_mod {n : Nat} (v : BitVec n) :
    v.msb = decide (v.toNat / 2 ^ (n - 1) % 2 = 1) := by
  rw [BitVec.msb_eq_getLsbD_last, BitVec.getLsbD, Nat.testBit_eq_decide_div_mod_eq]

/-- R11's `sext_N`: the value, and `65536 - 2^N` more when the sign bit is set. -/
theorem sext_toNat {n : Nat} (v : BitVec n) (hle : n ≤ 16) :
    (sext v).toNat = sextNat n v.toNat := by
  have hvalue : (v.setWidth 16).toNat = v.toNat % 2 ^ n := by
    rw [BitVec.toNat_setWidth_of_le hle, Nat.mod_eq_of_lt v.isLt]
  rw [sext, BitVec.toNat_signExtend, hvalue, msb_eq_decide_div_mod v, sextNat]
  by_cases hsign : v.toNat / 2 ^ (n - 1) % 2 = 1 <;> simp [hsign]

/-- R11's `zext_N` keeps the number. -/
theorem zext_toNat {n : Nat} (v : BitVec n) (hle : n ≤ 16) : (zext v).toNat = v.toNat :=
  BitVec.toNat_setWidth_of_le hle

/-- The extended word is the word of R11's number. -/
theorem sext_eq_ofNat_sextNat {n : Nat} (v : BitVec n) (hle : n ≤ 16) :
    sext v = BitVec.ofNat 16 (sextNat n v.toNat) := by
  rw [← sext_toNat v hle, BitVec.ofNat_toNat, BitVec.setWidth_eq]

/-- A word plus an extended offset is R10's sum of the numbers modulo 2^16 (R35). -/
theorem add_sext_eq_target {n : Nat} (a : Word) (off : BitVec n) (hle : n ≤ 16) :
    a + sext off = target a off := by
  rw [target, BitVec.ofNat_add, BitVec.ofNat_toNat, BitVec.setWidth_eq, sext_eq_ofNat_sextNat off hle]

/-- R87's PC-relative sum at every width up to 16. -/
theorem pcRelative_eq_target {n : Nat} (pc : Word) (off : BitVec n) (hle : n ≤ 16) :
    pcRelative pc off = target pc off :=
  add_sext_eq_target pc off hle

/-- R87's base + offset sum. -/
theorem baseOffset_eq_target (base : Word) (off : BitVec 6) : baseOffset base off = target base off :=
  add_sext_eq_target base off (by decide)

/-- Settles O6: the numbers of both extensions at every width, then the sums at the widths 9, 11 and 6. -/
theorem extensionsFollowTheirFormulas : Obligations.ExtensionsFollowTheirFormulas := by
  unfold Obligations.ExtensionsFollowTheirFormulas
  refine ⟨?extensions, ?pcRelative9, ?pcRelative11, baseOffset_eq_target⟩
  case extensions => exact fun n v _ hle => ⟨sext_toNat v hle, zext_toNat v hle⟩
  case pcRelative9 => exact fun pc off => pcRelative_eq_target pc off (by decide)
  case pcRelative11 => exact fun pc off => pcRelative_eq_target pc off (by decide)

end Sys2Proof.Machine
end

section
/-! What each shared operation leaves unchanged and what it writes, field by field, so that no proof about an instruction
unfolds a service or a load. -/

namespace Sys2Proof.Machine

open Sys2Proof.Claims

/-! ### The flag of a word (R17, R74) -/

/-- `setcc` reads bit 15 as the sign (R17). -/
theorem condOf_eq_ite_bit15 (v : Word) :
    condOf v = if v = 0#16 then .zro else if v.getLsbD 15 = true then .neg else .pos := by
  rw [condOf, BitVec.msb_eq_getLsbD_last]

/-- `setcc` gives the flag of the word read as a signed number (R74). -/
theorem condOf_eq_flagOf (v : Word) : condOf v = flagOf v := by
  have hlt : v.toNat < 65536 := v.isLt
  have hmsb : v.msb = decide (32768 ≤ v.toNat) := BitVec.msb_eq_decide v
  by_cases hzero : v = 0#16
  · subst hzero; rfl
  have hne : v.toNat ≠ 0 := fun h => hzero (BitVec.toNat_inj.1 h)
  by_cases hneg : 32768 ≤ v.toNat
  · have hsigned : signed v < 0 := by rw [signed, if_pos hneg]; omega
    simp [condOf, flagOf, hzero, hmsb, hneg, hsigned]
  · have hsigned : 0 < signed v := by rw [signed, if_neg hneg]; omega
    simp [condOf, flagOf, hzero, hmsb, hneg, hsigned.not_gt, hsigned.ne']

/-! ### Loads -/

@[simp] theorem State.loadInto_pc (s : State) (dr : Reg) (a : Word) : (s.loadInto dr a).pc = s.pc := s.afterRead_pc a
@[simp] theorem State.loadInto_status (s : State) (dr : Reg) (a : Word) : (s.loadInto dr a).status = s.status :=
  s.afterRead_status a
@[simp] theorem State.loadInto_cond (s : State) (dr : Reg) (a : Word) :
    (s.loadInto dr a).cond = condOf (s.readValue a) := rfl
@[simp] theorem State.loadInto_reg (s : State) (dr q : Reg) (a : Word) :
    (s.loadInto dr a).reg q = if q = dr then s.readValue a else s.reg q := by
  rw [State.loadInto, State.setReg_reg, State.afterRead_reg]

/-! ### The services -/

/-- PUTS reads its word, writes some bytes and says where it stands; nothing else (R91). -/
theorem State.putsService_shape (s : State) (a : Word) :
    ∃ out v, s.putsService a = ((s.afterRead a).writeChars out).serviceGoesOn v := by
  by_cases h : s.readValue a = 0#16
  · exact ⟨[], .idle, by simp [State.putsService_zero h, State.serviceDone, State.serviceGoesOn, State.writeChars]⟩
  · exact ⟨_, _, State.putsService_char h⟩

/-- PUTSP reads its word, writes some bytes and says where it stands; nothing else (R93). -/
theorem State.putspService_shape (s : State) (a : Word) :
    ∃ out v, s.putspService a = ((s.afterRead a).writeChars out).serviceGoesOn v := by
  by_cases h : s.readValue a = 0#16
  · exact ⟨[], .idle, by simp [State.putspService_zero h, State.serviceDone, State.serviceGoesOn, State.writeChars]⟩
  by_cases h' : highByte (s.readValue a) = 0#8
  · exact ⟨_, _, State.putspService_last h h'⟩
  · exact ⟨[lowByte (s.readValue a), highByte (s.readValue a)], .putsp (a + 1#16), by
      simp [State.putspService_pair h h', State.writeChar, State.writeChars]⟩

@[simp] theorem State.putsService_pc (s : State) (a : Word) : (s.putsService a).pc = s.pc := by
  obtain ⟨out, v, e⟩ := s.putsService_shape a; simp [e]
@[simp] theorem State.putsService_cond (s : State) (a : Word) : (s.putsService a).cond = s.cond := by
  obtain ⟨out, v, e⟩ := s.putsService_shape a; simp [e]
@[simp] theorem State.putsService_status (s : State) (a : Word) : (s.putsService a).status = s.status := by
  obtain ⟨out, v, e⟩ := s.putsService_shape a; simp [e]

@[simp] theorem State.putspService_pc (s : State) (a : Word) : (s.putspService a).pc = s.pc := by
  obtain ⟨out, v, e⟩ := s.putspService_shape a; simp [e]
@[simp] theorem State.putspService_cond (s : State) (a : Word) : (s.putspService a).cond = s.cond := by
  obtain ⟨out, v, e⟩ := s.putspService_shape a; simp [e]
@[simp] theorem State.putspService_status (s : State) (a : Word) : (s.putspService a).status = s.status := by
  obtain ⟨out, v, e⟩ := s.putspService_shape a; simp [e]

@[simp] theorem State.getcService_pc (s : State) : s.getcService.pc = s.pc := by
  rcases s.getcService_cases with ⟨k, rest, _, e⟩ | ⟨_, e⟩ <;> simp [e]
@[simp] theorem State.getcService_status (s : State) : s.getcService.status = s.status := by
  rcases s.getcService_cases with ⟨k, rest, _, e⟩ | ⟨_, e⟩ <;> simp [e]
/-- GETC sets COND from R0 when it has its byte, and not while it waits (R89, D16). -/
theorem State.getcService_cond (s : State) :
    s.getcService.cond = if s.kbdIn = [] then s.cond else flagOf (s.getcService.reg .r0) := by
  rcases s.getcService_cases with ⟨k, rest, hk, e⟩ | ⟨hk, e⟩ <;> simp [e, hk, condOf_eq_flagOf]

@[simp] theorem State.inService_pc (s : State) : s.inService.pc = s.pc := by
  rcases s.inService_cases with ⟨k, rest, _, e⟩ | ⟨_, e⟩ <;> simp [e]
@[simp] theorem State.inService_status (s : State) : s.inService.status = s.status := by
  rcases s.inService_cases with ⟨k, rest, _, e⟩ | ⟨_, e⟩ <;> simp [e]
/-- IN sets COND from R0 when it has its byte, and not while it waits (R92, D16). -/
theorem State.inService_cond (s : State) :
    s.inService.cond = if s.kbdIn = [] then s.cond else flagOf (s.inService.reg .r0) := by
  rcases s.inService_cases with ⟨k, rest, hk, e⟩ | ⟨hk, e⟩ <;> simp [e, hk, condOf_eq_flagOf]

@[simp] theorem State.haltService_pc (s : State) : s.haltService.pc = s.pc := rfl
@[simp] theorem State.haltService_cond (s : State) : s.haltService.cond = s.cond := rfl
@[simp] theorem State.haltService_status (s : State) : s.haltService.status = .halted .haltTrap := rfl
@[simp] theorem State.haltService_service (s : State) : s.haltService.service = s.service := rfl

/-- No vector's service changes PC (R95). -/
@[simp] theorem State.trapDispatch_pc (s : State) (v : Byte) : (s.trapDispatch v).pc = s.pc := by
  rcases s.trapDispatch_cases v with ⟨_, e⟩ | ⟨_, e⟩ | ⟨_, e⟩ | ⟨_, e⟩ | ⟨_, e⟩ | ⟨_, e⟩ | ⟨_, e⟩ <;> simp [e]

/-! ### A service that goes on -/

/-- Outside `idle` the micro-step is that of the service in progress (R68, D29). -/
theorem State.resume_cases {s : State} (hv : s.service ≠ .idle) :
    (s.service = .getc ∧ s.resume = s.getcService) ∨ (s.service = .inChar ∧ s.resume = s.inService) ∨
    (∃ a, s.service = .puts a ∧ s.resume = s.putsService a) ∨
    (∃ a, s.service = .putsp a ∧ s.resume = s.putspService a) := by
  unfold State.resume
  cases h : s.service with
  | idle => exact absurd h hv
  | getc => exact .inl ⟨rfl, rfl⟩
  | inChar => exact .inr (.inl ⟨rfl, rfl⟩)
  | puts a => exact .inr (.inr (.inl ⟨a, rfl, rfl⟩))
  | putsp a => exact .inr (.inr (.inr ⟨a, rfl, rfl⟩))

theorem State.resume_pc {s : State} (hv : s.service ≠ .idle) : s.resume.pc = s.pc := by
  rcases State.resume_cases hv with ⟨_, e⟩ | ⟨_, e⟩ | ⟨a, _, e⟩ | ⟨a, _, e⟩ <;> simp [e]

theorem State.resume_status {s : State} (hv : s.service ≠ .idle) : s.resume.status = s.status := by
  rcases State.resume_cases hv with ⟨_, e⟩ | ⟨_, e⟩ | ⟨a, _, e⟩ | ⟨a, _, e⟩ <;> simp [e]

/-- Only GETC and IN write COND, from R0 and when they get their byte (R23, D16). -/
theorem State.resume_cond {s : State} (hv : s.service ≠ .idle) :
    s.resume.cond = if s.kbdIn ≠ [] ∧ (s.service = .getc ∨ s.service = .inChar) then flagOf (s.resume.reg .r0)
      else s.cond := by
  rcases State.resume_cases hv with ⟨hs, e⟩ | ⟨hs, e⟩ | ⟨a, hs, e⟩ | ⟨a, hs, e⟩ <;> rw [e]
  · simp [s.getcService_cond, hs]
  · simp [s.inService_cond, hs]
  · simp [hs]
  · simp [hs]

/-! ### The step: what it runs -/

/-- The decoder gives `trap v` only for a vector that names no service (R55, R88). -/
theorem decodeTrap_wellFormed (v : Byte) : (decodeTrap v).WellFormed := by
  revert v; decide

/-- What a word decodes to is well-formed (R57). -/
theorem decode_wellFormed (w : Word) : (decode w).WellFormed := by
  apply decode_elim w
  case hTrap => exact fun _ => decodeTrap_wellFormed _
  all_goals intros; rfl

/-- The TRAP row's own instruction is well-formed only with a vector that names no service (R55, R88). -/
theorem isServiceVector_eq_false_of_wellFormed {v : Byte} (wf : (Instr.trap v).WellFormed) :
    isServiceVector v = false := by
  simpa [Instr.WellFormed, Instr.wellFormed] using wf

/-- A well-formed `trap v` links and raises InvalidTrap (R88). -/
theorem exec_trap_of_wellFormed {v : Byte} (wf : (Instr.trap v).WellFormed) (s : State) :
    exec (.trap v) s = .next (s.trapLink.raise (.invalidTrap v s.pc)) :=
  congrArg Host.Outcome.next (State.trapDispatch_invalid (isServiceVector_eq_false_of_wellFormed wf))

/-- The incremented PC as a number (R10, R64). -/
theorem word_add_one (a : Word) : a + 1#16 = BitVec.ofNat 16 (a.toNat + 1) := by
  rw [BitVec.ofNat_add, BitVec.ofNat_toNat, BitVec.setWidth_eq]

/-- A running machine between services and below the top runs the fetched instruction's body, PC incremented (R64). -/
theorem step_fetch {s : State} (h : s.status = .running) (hv : s.service = .idle) (hp : s.pc ≠ lastAddr) :
    step s = exec (decode (s.readValue s.pc)) ((s.afterRead s.pc).setPc (s.pc + 1#16)) := by
  simp [step, State.cyclePlan, State.fetchPlan, h, hv, hp]

/-- A step inside a service is one more micro-step of it (R68, D29). -/
theorem step_next_inside {s t : State} (hv : s.service ≠ .idle) (h : step s = .next t) : t = s.resume := by
  obtain ⟨_, ⟨_, _, e⟩ | ⟨hi, _⟩ | ⟨hi, _⟩⟩ := step_next_cases h
  · exact e
  · exact absurd hi hv
  · exact absurd hi hv

/-- A step from 0xFFFF between services is the end of the run at the PC bound (R66). -/
theorem step_next_top {s t : State} (hv : s.service = .idle) (hp : s.pc = lastAddr) (h : step s = .next t) :
    t = (s.afterRead s.pc).halt .pcBound := by
  obtain ⟨_, ⟨hi, _⟩ | ⟨_, _, e⟩ | ⟨_, hi, _⟩⟩ := step_next_cases h
  · exact absurd hv hi
  · exact e
  · exact absurd hp hi

end Sys2Proof.Machine
end

section
/-! Predicates that every named operation of the state keeps: an instruction's body, a service and a step are made of those
operations, so they keep the predicate too. -/

namespace Sys2Proof.Machine

/-- Every operation that a step is made of keeps `P`. Of the input a byte may only be taken from the front (R32). -/
structure KeptByOperations (P : State → Prop) : Prop where
  setReg : ∀ {s : State} (r : Reg) (v : Word) (u : Bool), P s → P (s.setReg r v u)
  setPc : ∀ {s : State} (t : Word), P s → P (s.setPc t)
  memWrite : ∀ {s : State} (a v : Word), P s → P (s.memWrite a v)
  afterRead : ∀ {s : State} (a : Word), P s → P (s.afterRead a)
  writeChars : ∀ {s : State} (bs : List Byte), P s → P (s.writeChars bs)
  keyTaken : ∀ {s : State} {k : Byte} {rest : List Byte}, s.kbdIn = k :: rest → P s → P (s.keyTaken rest)
  serviceGoesOn : ∀ {s : State} (v : Service), P s → P (s.serviceGoesOn v)
  halt : ∀ {s : State} (why : HaltReason), P s → P (s.halt why)
  raise : ∀ {s : State} (what : Fatal), P s → P (s.raise what)

namespace KeptByOperations

variable {P : State → Prop} {s t : State}

theorem acceptKey (K : KeptByOperations P) (k : Byte) (hs : P s) : P (s.acceptKey k) :=
  K.serviceGoesOn .idle (K.setReg .r0 (zext k) true hs)

theorem loadInto (K : KeptByOperations P) (dr : Reg) (a : Word) (hs : P s) : P (s.loadInto dr a) :=
  K.setReg dr (s.readValue a) true (K.afterRead a hs)

theorem getcService (K : KeptByOperations P) (hs : P s) : P s.getcService := by
  rcases s.getcService_cases with ⟨k, rest, hk, e⟩ | ⟨_, e⟩ <;> rw [e]
  · exact K.acceptKey k (K.keyTaken hk hs)
  · exact K.serviceGoesOn .getc hs

theorem inService (K : KeptByOperations P) (hs : P s) : P s.inService := by
  rcases s.inService_cases with ⟨k, rest, hk, e⟩ | ⟨_, e⟩ <;> rw [e]
  · exact K.acceptKey k (K.writeChars [k] (K.keyTaken hk hs))
  · exact K.serviceGoesOn .inChar hs

theorem putsService (K : KeptByOperations P) (a : Word) (hs : P s) : P (s.putsService a) := by
  obtain ⟨out, v, e⟩ := s.putsService_shape a
  rw [e]
  exact K.serviceGoesOn v (K.writeChars out (K.afterRead a hs))

theorem putspService (K : KeptByOperations P) (a : Word) (hs : P s) : P (s.putspService a) := by
  obtain ⟨out, v, e⟩ := s.putspService_shape a
  rw [e]
  exact K.serviceGoesOn v (K.writeChars out (K.afterRead a hs))

theorem haltService (K : KeptByOperations P) (hs : P s) : P s.haltService :=
  K.halt .haltTrap (K.writeChars Config.haltNotice hs)

theorem trapLink (K : KeptByOperations P) (hs : P s) : P s.trapLink := K.setReg .r7 _ false hs

theorem trapDispatch (K : KeptByOperations P) (v : Byte) (hs : P s) : P (s.trapDispatch v) := by
  rcases s.trapDispatch_cases v with ⟨_, e⟩ | ⟨_, e⟩ | ⟨_, e⟩ | ⟨_, e⟩ | ⟨_, e⟩ | ⟨_, e⟩ | ⟨_, e⟩ <;> rw [e]
  · exact K.getcService hs
  · exact K.writeChars _ hs
  · exact K.putsService _ hs
  · exact K.inService (K.writeChars _ hs)
  · exact K.putspService _ hs
  · exact K.haltService hs
  · exact K.raise _ hs

/-- The body of an instruction keeps `P` (R67). -/
theorem exec (K : KeptByOperations P) {i : Instr} (hs : P s) (h : Machine.exec i s = .next t) : P t := by
  cases i with
  | br | jmp => cases h; exact K.setPc _ hs
  | jsr | jsrr => cases h; exact K.setPc _ (K.setReg _ _ _ hs)
  | add | addi | and | andi | not | lea => cases h; exact K.setReg _ _ _ hs
  | ld | ldr => cases h; exact K.loadInto _ _ hs
  | ldi => cases h; exact K.loadInto _ _ (K.afterRead _ hs)
  | st | str => cases h; exact K.memWrite _ _ hs
  | sti => cases h; exact K.memWrite _ _ (K.afterRead _ hs)
  | rti | res => cases h; exact K.raise _ hs
  | trap v => cases h; exact K.trapDispatch v (K.trapLink hs)
  | trapGetc => cases h; exact K.getcService (K.trapLink hs)
  | trapOut => cases h; exact K.writeChars _ (K.trapLink hs)
  | trapPuts => cases h; exact K.putsService _ (K.trapLink hs)
  | trapIn => cases h; exact K.inService (K.writeChars _ (K.trapLink hs))
  | trapPutsp => cases h; exact K.putspService _ (K.trapLink hs)
  | trapHalt => cases h; exact K.haltService (K.trapLink hs)

theorem resume (K : KeptByOperations P) (hv : s.service ≠ .idle) (hs : P s) : P s.resume := by
  rcases State.resume_cases hv with ⟨_, e⟩ | ⟨_, e⟩ | ⟨a, _, e⟩ | ⟨a, _, e⟩ <;> rw [e]
  · exact K.getcService hs
  · exact K.inService hs
  · exact K.putsService a hs
  · exact K.putspService a hs

/-- A step keeps `P` (R64 to R68). -/
theorem step (K : KeptByOperations P) (hs : P s) (h : Machine.step s = .next t) : P t := by
  obtain ⟨_, ⟨hv, _, rfl⟩ | ⟨_, _, rfl⟩ | ⟨_, _, hexec⟩⟩ := step_next_cases h
  · exact K.resume hv hs
  · exact K.halt .pcBound (K.afterRead s.pc hs)
  · exact K.exec (K.setPc _ (K.afterRead s.pc hs)) hexec

end KeptByOperations

/-! ### The canonical form of the memory (R25) -/

/-- No operation leaves the canonical form of the memory. -/
theorem memWf_kept : KeptByOperations (fun s => s.mem.wf = true) where
  setReg _ _ _ hs := hs
  setPc _ hs := hs
  memWrite a v hs := Memory.write_wf hs a v
  afterRead a hs := State.afterRead_wf hs a
  writeChars _ hs := hs
  keyTaken _ hs := hs
  serviceGoesOn _ hs := hs
  halt _ hs := hs
  raise _ hs := hs

/-! ### The console streams (R27, R32) -/

/-- Since `s`, `con_out` has only grown at its end and `kbd_in` has only lost bytes at its front (R27, R32). -/
def State.streamsForward (s t : State) : Prop := s.conOut <+: t.conOut ∧ t.kbdIn <:+ s.kbdIn

/-- No operation moves a console stream back. -/
theorem streamsForward_kept (s : State) : KeptByOperations s.streamsForward where
  setReg _ _ _ hs := hs
  setPc _ hs := hs
  memWrite _ _ hs := hs
  afterRead {t} a hs := ⟨by rw [State.afterRead_conOut]; exact hs.1, (t.afterRead_kbdIn_suffix a).trans hs.2⟩
  writeChars bs hs := ⟨hs.1.trans (List.prefix_append _ bs), hs.2⟩
  keyTaken {_ k rest} hk hs := ⟨hs.1, (hk ▸ List.suffix_cons k rest).trans hs.2⟩
  serviceGoesOn _ hs := hs
  halt _ hs := hs
  raise _ hs := hs

/-- Settles O16: no operation moves a stream back, so no step does. -/
theorem consoleStreamsOnlyMoveForward : Obligations.ConsoleStreamsOnlyMoveForward := by
  unfold Obligations.ConsoleStreamsOnlyMoveForward
  intro s t h
  exact (streamsForward_kept s).step ⟨List.prefix_rfl, List.suffix_rfl⟩ h

end Sys2Proof.Machine
end

section
/-! PC and the run status after an instruction's body, and the machine's invariant (R21, R26). -/

namespace Sys2Proof.Machine

open Sys2Proof.Claims

/-! ### PC (R21) -/

/-- BR's test asks for the live flag (R75). -/
theorem branchTaken_iff (n z p : Bool) (c : Cond) :
    branchTaken n z p c = true ↔ (n = true ∧ c = .neg) ∨ (z = true ∧ c = .zro) ∨ (p = true ∧ c = .pos) := by
  cases c <;> simp [branchTaken]

/-- PC after the body is the value of R21's table. -/
theorem exec_pc {i : Instr} {s t : State} (h : exec i s = .next t) : t.pc = pcAfter i s := by
  cases i with
  | br n z p off =>
    cases h
    simp only [State.setPc_pc, pcAfter, branchTaken_iff, pcRelative_eq_target s.pc off (by decide)]
  | jsr off => cases h; exact pcRelative_eq_target s.pc off (by decide)
  | jsrr base => cases h; exact State.setReg_reg s .r7 base s.pc false
  | _ => cases h; simp [pcAfter]

/-- Settles O12: PC after the body instruction by instruction, and the step's own three cases. -/
theorem pcChangesOnlyAsListed : Obligations.PcChangesOnlyAsListed := by
  unfold Obligations.PcChangesOnlyAsListed
  refine ⟨fun i s t => exec_pc, ?increment, ?bound, ?service, fun _ _ _ => rfl⟩
  case increment =>
    exact fun s h hv hp => ⟨_, _, word_add_one s.pc, step_fetch h hv hp⟩
  case bound =>
    intro s t hv hp h
    rw [step_next_top hv hp h]
    exact ⟨s.afterRead_pc s.pc, rfl⟩
  case service =>
    intro s t hv h
    rw [step_next_inside hv h, State.resume_pc hv]

/-! ### The run status (R26) -/

/-- The status after the body of a well-formed instruction is the one of R26's table. -/
theorem exec_status {i : Instr} (wf : i.WellFormed) {s t : State} (h : exec i s = .next t) :
    t.status = statusAfter i s := by
  cases i with
  | trap v =>
    rw [exec_trap_of_wellFormed wf] at h
    cases h; rfl
  | _ => cases h; simp [statusAfter, opRti, opRes]

/-- Settles O14: the status after the body instruction by instruction, and the step's own cases. -/
theorem statusChangesOnlyAsListed : Obligations.StatusChangesOnlyAsListed := by
  unfold Obligations.StatusChangesOnlyAsListed
  refine ⟨fun i wf s t => exec_status wf, ?bound, ?service, ?running, fun _ _ _ => rfl⟩
  case bound =>
    intro s t hv hp h
    rw [step_next_top hv hp h, State.halt_status]
  case service =>
    intro s t hv h
    rw [step_next_inside hv h, State.resume_status hv, (step_next_cases h).1]
  case running => exact fun s t h => (step_next_cases h).1

/-! ### The invariant -/

/-- A body either keeps the run status or is one of the four endings: HALT, RTI, RES and an invalid TRAP (R26). -/
theorem exec_status_cases {i : Instr} (wf : i.WellFormed) {s t : State} (h : exec i s = .next t) :
    t.status = s.status ∨ (i = .trapHalt ∧ t = s.trapLink.haltService) ∨
    (i = .rti ∧ t = s.raise (.invalidOpcode opRti s.pc)) ∨ (i = .res ∧ t = s.raise (.invalidOpcode opRes s.pc)) ∨
    (∃ v, i = .trap v ∧ isServiceVector v = false ∧ t = s.trapLink.raise (.invalidTrap v s.pc)) := by
  cases i with
  | trapHalt => injection h with h; exact .inr (.inl ⟨rfl, h.symm⟩)
  | rti => injection h with h; exact .inr (.inr (.inl ⟨rfl, h.symm⟩))
  | res => injection h with h; exact .inr (.inr (.inr (.inl ⟨rfl, h.symm⟩)))
  | trap v =>
    rw [exec_trap_of_wellFormed wf] at h
    injection h with h
    exact .inr (.inr (.inr (.inr ⟨v, rfl, isServiceVector_eq_false_of_wellFormed wf, h.symm⟩)))
  | _ => exact .inl (exec_status wf h)

/-- What the invariant says of status and service. -/
def State.runGood (s : State) : Prop := s.statusGood = true ∧ s.serviceGood = true

/-- A running machine satisfies the status part of the invariant, whatever service is in progress. -/
theorem State.runGood_of_running {s : State} (h : s.status = .running) : s.runGood := by
  simp [State.runGood, State.statusGood, State.serviceGood, h]

/-- The body of a well-formed instruction, run between services, ends the run only as the invariant allows. -/
theorem exec_runGood {i : Instr} (wf : i.WellFormed) {s t : State} (hr : s.status = .running) (hv : s.service = .idle)
    (h : exec i s = .next t) : t.runGood := by
  rcases exec_status_cases wf h with e | ⟨_, rfl⟩ | ⟨_, rfl⟩ | ⟨_, rfl⟩ | ⟨v, _, hvec, rfl⟩
  · exact State.runGood_of_running (e.trans hr)
  · simp [State.runGood, State.statusGood, State.serviceGood, hv]
  · simp [State.runGood, State.statusGood, State.serviceGood, hv]
  · simp [State.runGood, State.statusGood, State.serviceGood, hv]
  · simp [State.runGood, State.statusGood, State.serviceGood, hv, hvec]

/-- A step leaves a status and a service that the invariant allows, from any state. -/
theorem step_runGood {s t : State} (h : step s = .next t) : t.runGood := by
  obtain ⟨hr, ⟨hv, _, rfl⟩ | ⟨hv, hp, rfl⟩ | ⟨hv, _, hexec⟩⟩ := step_next_cases h
  · exact State.runGood_of_running ((State.resume_status hv).trans hr)
  · simp [State.runGood, State.statusGood, State.serviceGood, hv, hp]
  · exact exec_runGood (decode_wellFormed _) (by simpa using hr) (by simpa using hv) hexec

/-- Settles O17: every operation keeps the canonical memory, and a step ends the run only as its rules say. -/
theorem invariantIsKeptByEveryStep : Obligations.InvariantIsKeptByEveryStep := by
  unfold Obligations.InvariantIsKeptByEveryStep
  rintro s t ⟨hmem, _⟩ h
  obtain ⟨hstatus, hservice⟩ := step_runGood h
  exact ⟨memWf_kept.step hmem h, hstatus, hservice⟩

end Sys2Proof.Machine
end

section
/-! COND: who writes it and who reads it (R23), and the register file as the host sees it (R16, R17, R22). -/

namespace Sys2Proof.Machine

open Sys2Proof.Claims

/-! ### Who writes COND -/

/-- COND after the body of a well-formed instruction: the flag of the register it is set from, or as it was (R23). -/
theorem exec_cond {i : Instr} (wf : i.WellFormed) {s t : State} (h : exec i s = .next t) :
    t.cond = (condSource i s).elim s.cond (fun r => flagOf (t.reg r)) := by
  cases i with
  | trap v =>
    rw [exec_trap_of_wellFormed wf] at h
    cases h; rfl
  | trapGetc =>
    cases h
    rw [State.getcService_cond, condSource]
    by_cases hk : s.kbdIn = [] <;> simp [hk]
  | trapIn =>
    cases h
    rw [State.inService_cond, condSource]
    by_cases hk : s.kbdIn = [] <;> simp [hk]
  | _ => cases h; simp [condSource, condOf_eq_flagOf]

/-! ### Who reads COND -/

/-- The state with another COND. -/
def State.withCond (s : State) (c : Cond) : State := { s with cond := c }

/-- `t` came of `s` and `u` of `s.withCond c` by an operation that does not read COND: `u` is `t`, but for a COND that
neither wrote. -/
def State.condUnread (s t : State) (c : Cond) (u : State) : Prop := u = t ∨ (u = t.withCond c ∧ t.cond = s.cond)

@[simp] theorem State.withCond_kbdIn (s : State) (c : Cond) : (s.withCond c).kbdIn = s.kbdIn := rfl

@[simp] theorem State.withCond_readValue (s : State) (c : Cond) (a : Word) :
    (s.withCond c).readValue a = s.readValue a := by
  unfold State.readValue State.afterRead; split <;> rfl

@[simp] theorem State.withCond_afterRead (s : State) (c : Cond) (a : Word) :
    (s.withCond c).afterRead a = (s.afterRead a).withCond c := by
  unfold State.afterRead; split <;> rfl

/-- A load overwrites COND (R80 to R82). -/
@[simp] theorem State.withCond_loadInto (s : State) (c : Cond) (dr : Reg) (a : Word) :
    (s.withCond c).loadInto dr a = s.loadInto dr a := by
  rw [State.loadInto, State.withCond_readValue, State.withCond_afterRead]; rfl

theorem State.withCond_putsService (s : State) (c : Cond) (a : Word) :
    (s.withCond c).putsService a = (s.putsService a).withCond c := by
  simp only [State.putsService, State.withCond_readValue, State.withCond_afterRead]
  split <;> rfl

theorem State.withCond_putspService (s : State) (c : Cond) (a : Word) :
    (s.withCond c).putspService a = (s.putspService a).withCond c := by
  simp only [State.putspService, State.withCond_readValue, State.withCond_afterRead]
  split_ifs <;> rfl

theorem State.getcService_condUnread (s : State) (c : Cond) :
    s.condUnread s.getcService c (s.withCond c).getcService := by
  rcases s.getcService_cases with ⟨k, rest, hk, e⟩ | ⟨hk, e⟩
  all_goals rw [e, State.getcService, State.withCond_kbdIn, hk]
  · exact .inl rfl
  · exact .inr ⟨rfl, rfl⟩

theorem State.inService_condUnread (s : State) (c : Cond) :
    s.condUnread s.inService c (s.withCond c).inService := by
  rcases s.inService_cases with ⟨k, rest, hk, e⟩ | ⟨hk, e⟩
  all_goals rw [e, State.inService, State.withCond_kbdIn, hk]
  · exact .inl rfl
  · exact .inr ⟨rfl, rfl⟩

/-- No vector's service reads COND (R23). -/
theorem State.trapDispatch_condUnread (s : State) (c : Cond) (v : Byte) :
    s.condUnread (s.trapDispatch v) c ((s.withCond c).trapDispatch v) := by
  rcases s.trapDispatch_cases v with
    ⟨rfl, _⟩ | ⟨rfl, _⟩ | ⟨rfl, _⟩ | ⟨rfl, _⟩ | ⟨rfl, _⟩ | ⟨rfl, _⟩ | ⟨hv, _⟩
  · exact s.getcService_condUnread c
  · exact .inr ⟨rfl, rfl⟩
  · exact .inr ⟨s.withCond_putsService c _, s.putsService_cond _⟩
  · exact (s.writeChars Config.inPrompt).inService_condUnread c
  · exact .inr ⟨s.withCond_putspService c _, s.putspService_cond _⟩
  · exact .inr ⟨rfl, rfl⟩
  · rw [State.trapDispatch_invalid hv, State.trapDispatch_invalid hv]
    exact .inr ⟨rfl, rfl⟩

/-- No instruction but BR reads COND (R23, R75). -/
theorem exec_condUnread {i : Instr} (hbr : ∀ n z p off, i ≠ .br n z p off) {s t : State} (c : Cond)
    (h : exec i s = .next t) : ∃ u, exec i (s.withCond c) = .next u ∧ s.condUnread t c u := by
  cases i with
  | br n z p off => exact absurd rfl (hbr n z p off)
  | add | addi | and | andi | not | lea =>
    cases h
    exact ⟨_, rfl, .inl rfl⟩
  | ld | ldr =>
    cases h
    exact ⟨_, rfl, .inl (s.withCond_loadInto c _ _)⟩
  | ldi dr off =>
    cases h
    refine ⟨_, rfl, .inl ?_⟩
    rw [State.withCond_readValue, State.withCond_afterRead, State.withCond_loadInto]; rfl
  | sti sr off =>
    cases h
    refine ⟨_, rfl, .inr ⟨?_, State.afterRead_cond _ _⟩⟩
    rw [State.withCond_readValue, State.withCond_afterRead]; rfl
  | st | str | jmp | jsr | jsrr | rti | res | trapOut | trapHalt =>
    cases h
    exact ⟨_, rfl, .inr ⟨rfl, rfl⟩⟩
  | trap v =>
    cases h
    exact ⟨_, rfl, s.trapLink.trapDispatch_condUnread c v⟩
  | trapGetc =>
    cases h
    exact ⟨_, rfl, s.trapLink.getcService_condUnread c⟩
  | trapIn =>
    cases h
    exact ⟨_, rfl, (s.trapLink.writeChars Config.inPrompt).inService_condUnread c⟩
  | trapPuts =>
    cases h
    exact ⟨_, rfl, .inr ⟨s.trapLink.withCond_putsService c _, s.trapLink.putsService_cond _⟩⟩
  | trapPutsp =>
    cases h
    exact ⟨_, rfl, .inr ⟨s.trapLink.withCond_putspService c _, s.trapLink.putspService_cond _⟩⟩

/-- Settles O13: the writers instruction by instruction and service by service, then the one reader. -/
theorem condChangesOnlyAsListed : Obligations.CondChangesOnlyAsListed := by
  unfold Obligations.CondChangesOnlyAsListed
  refine ⟨?body, ?bound, ?service, ?unread⟩
  case body =>
    intro i wf s t h
    rw [exec_cond wf h]
    cases condSource i s <;> rfl
  case bound =>
    intro s t hv hp h
    rw [step_next_top hv hp h, State.halt_cond, State.afterRead_cond]
  case service =>
    intro s t hv h
    rw [step_next_inside hv h]
    exact State.resume_cond hv
  case unread =>
    intro i s t c hbr h
    obtain ⟨u, hu, rfl | ⟨rfl, hcond⟩⟩ := exec_condUnread hbr c h
    · exact ⟨u, hu, rfl, .inl rfl⟩
    · exact ⟨_, hu, rfl, .inr ⟨hcond, rfl⟩⟩

/-! ### The register file -/

/-- Settles O23: the written register by the write port's own law, COND by setcc. -/
theorem registerWritePort : Obligations.RegisterWritePort := by
  unfold Obligations.RegisterWritePort
  intro s r v u
  refine ⟨?written, ?kept, ?flags, condOf_eq_flagOf v, rfl⟩
  case written => rw [State.setReg_reg, if_pos rfl]
  case kept =>
    intro q hq
    rw [State.setReg_reg, if_neg (by simpa using hq)]
  case flags => rw [State.setReg_cond, condOf_eq_ite_bit15]

/-- An index from 10 up names no register (R16, R100). -/
theorem State.readIndex_of_ten_le (s : State) {n : Nat} (h : 10 ≤ n) : s.readIndex n = .error (.invalidRegister n) := by
  obtain ⟨k, rfl⟩ := Nat.exists_eq_add_of_le' h
  rfl

/-- Settles O24: the host sees what it asks for exactly at a boundary, and `readIndex` is the table of R16. -/
theorem registerFileHasTenIdentities : Obligations.RegisterFileHasTenIdentities := by
  unfold Obligations.RegisterFileHasTenIdentities
  refine ⟨fun s hv => ?boundary, fun s hv => ⟨?insideRegister, ?insideCell⟩⟩
  case boundary =>
    have seen : ∀ n, s.inspectRegister n = some (s.readIndex n) := fun n => State.observed_idle hv _
    refine ⟨seen 0, seen 1, seen 2, seen 3, seen 4, seen 5, seen 6, seen 7, seen 8, ?cond, ?others, ?cells⟩
    case cond => rw [seen, State.readIndex]; cases s.cond <;> rfl
    case others => exact fun n hn => by rw [seen, s.readIndex_of_ten_le hn]
    case cells => exact fun a => State.observed_idle hv _
  case insideRegister => exact fun n => State.observed_inside hv _
  case insideCell => exact fun a => State.observed_inside hv _

end Sys2Proof.Machine
end

section
/-! The memory interface (R29, R33), and the memory after an instruction's body (R34, R43). -/

namespace Sys2Proof.Machine

open Sys2Proof.Claims

/-! ### A write -/

/-- Settles O26: the law of read after write at the two kinds of cell. -/
theorem memWriteStoresOneCell : Obligations.MemWriteStoresOneCell := by
  unfold Obligations.MemWriteStoresOneCell
  intro s a v
  refine ⟨?written, fun b hb => ?kept, rfl⟩
  case written => rw [State.memWrite_mem, Memory.read_write, if_pos rfl]
  case kept => rw [State.memWrite_mem, Memory.read_write, if_neg hb]

/-! ### A read and its poll -/

/-- R11's `zext_16` of a byte as the word of its number. -/
theorem zext_eq_wordOfByte (k : Byte) : zext k = wordOfByte k := (BitVec.ofNat_toNat 16 k).symm

/-- A read of the status cell polls (R29). -/
theorem State.afterRead_kbsrAddr (s : State) : s.afterRead kbsrAddr = s.poll := if_pos rfl

/-- With a byte there and the answer true, the poll finds the first byte (R32). -/
theorem State.polledKey_cons {s : State} {k : Byte} {rest : List Byte} (hk : s.kbdIn = k :: rest)
    (answer : Config.pollKeyAvailable Config.pollTimeout s.polls = true) : s.polledKey = some k := by
  simp [State.polledKey, hk, answer]

/-- With no byte there, or with the answer false, the poll finds no key (R32). -/
theorem State.polledKey_eq_none {s : State}
    (h : ¬ (s.kbdIn ≠ [] ∧ Config.pollKeyAvailable Config.pollTimeout s.polls = true)) : s.polledKey = none := by
  cases hk : s.kbdIn with
  | nil => exact State.polledKey_nil hk
  | cons k rest =>
    have answer : Config.pollKeyAvailable Config.pollTimeout s.polls = false := by simpa [hk] using h
    simp [State.polledKey, hk, answer]

/-- The status cell after a poll that found a key, in both modes (R29, D12). -/
theorem statusAfterPoll_true (mode : PollMode) (old : Word) :
    statusAfterPoll mode true old = if mode = .bit15Only then old ||| 0x8000#16 else 0x8000#16 := by
  cases mode <;> rfl

/-- The status cell after a poll that found none, in both modes (R29, D12). -/
theorem statusAfterPoll_false (mode : PollMode) (old : Word) :
    statusAfterPoll mode false old = if mode = .bit15Only then old &&& 0x7FFF#16 else 0x0000#16 := by
  cases mode <;> rfl

/-- Settles O25: the fields the poll keeps, then the keyboard cells and the input by whether the poll finds a key. -/
theorem memReadPollsAtTheStatusCell : Obligations.MemReadPollsAtTheStatusCell := by
  unfold Obligations.MemReadPollsAtTheStatusCell
  refine ⟨fun s a ha => ⟨State.readValue_of_ne ha, State.afterRead_of_ne ha⟩, fun s => ?_⟩
  rw [State.readValue, State.afterRead_kbsrAddr]
  refine ⟨rfl, fun _ _ => rfl, rfl, rfl, ⟨rfl, rfl⟩, rfl, fun a => Memory.afterPoll_read_other _ _ _, ?_⟩
  rw [State.poll_mem, Memory.afterPoll_read_status, Memory.afterPoll_read_data, State.poll_kbdIn]
  split
  case isTrue found =>
    obtain ⟨hin, answer⟩ := found
    obtain ⟨k, rest, hk⟩ := List.exists_cons_of_ne_nil hin
    rw [State.polledKey_cons hk answer]
    exact ⟨⟨k, rest, hk, by rw [hk]; rfl, zext_eq_wordOfByte k⟩, statusAfterPoll_true _ _⟩
  case isFalse absent =>
    rw [State.polledKey_eq_none absent]
    exact ⟨rfl, rfl, statusAfterPoll_false _ _⟩

/-! ### The reads of a body, one after the other -/

/-- The state after a `MemRead` of each address in turn. -/
def State.afterReads (s : State) (reads : List Word) : State := reads.foldl State.afterRead s

/-- What no `MemRead` changes, several do not change. -/
theorem State.afterReads_kept {α : Type} (f : State → α) (kept : ∀ s a, f (State.afterRead s a) = f s) (s : State)
    (reads : List Word) : f (s.afterReads reads) = f s := by
  induction reads generalizing s with
  | nil => rfl
  | cons b reads ih => exact (ih (s.afterRead b)).trans (kept s b)

@[simp] theorem State.afterReads_pc (s : State) (reads : List Word) : (s.afterReads reads).pc = s.pc :=
  State.afterReads_kept State.pc State.afterRead_pc s reads
@[simp] theorem State.afterReads_status (s : State) (reads : List Word) : (s.afterReads reads).status = s.status :=
  State.afterReads_kept State.status State.afterRead_status s reads
@[simp] theorem State.afterReads_service (s : State) (reads : List Word) : (s.afterReads reads).service = s.service :=
  State.afterReads_kept State.service State.afterRead_service s reads

/-- Reads leave every cell alone, but for the two keyboard cells where one of them reads the status cell (R29, R39). -/
theorem State.afterReads_keepsMemBut (s : State) (reads : List Word) : keepsMemBut s (s.afterReads reads) reads := by
  induction reads generalizing s with
  | nil => exact fun _ _ => rfl
  | cons b reads ih =>
    intro a ha
    have hrest : ((s.afterRead b).afterReads reads).mem.read a = (s.afterRead b).mem.read a :=
      ih (s.afterRead b) a fun hmem => ha (List.mem_cons_of_mem b hmem)
    refine hrest.trans ?_
    by_cases hb : b = kbsrAddr
    · obtain ⟨hstatus, hdata⟩ := ha (hb ▸ List.mem_cons_self)
      exact s.afterRead_read_other b hstatus hdata
    · rw [State.afterRead_of_ne hb]

/-! ### The memory after a service -/

@[simp] theorem State.getcService_mem (s : State) : s.getcService.mem = s.mem := by
  rcases s.getcService_cases with ⟨k, rest, _, e⟩ | ⟨_, e⟩ <;> rw [e] <;> rfl
@[simp] theorem State.inService_mem (s : State) : s.inService.mem = s.mem := by
  rcases s.inService_cases with ⟨k, rest, _, e⟩ | ⟨_, e⟩ <;> rw [e] <;> rfl
@[simp] theorem State.putsService_mem (s : State) (a : Word) : (s.putsService a).mem = (s.afterRead a).mem := by
  obtain ⟨out, v, e⟩ := s.putsService_shape a; rw [e]; rfl
@[simp] theorem State.putspService_mem (s : State) (a : Word) : (s.putspService a).mem = (s.afterRead a).mem := by
  obtain ⟨out, v, e⟩ := s.putspService_shape a; rw [e]; rfl

/-- A read does not see the link of a TRAP (R29, R88). -/
@[simp] theorem State.trapLink_afterRead_mem (s : State) (a : Word) :
    (s.trapLink.afterRead a).mem = (s.afterRead a).mem := by
  unfold State.afterRead; split <;> rfl

/-! ### The memory after an instruction's body -/

/-- A store instruction makes its reads and stores the register's word at its address; nothing else (R84 to R86). -/
theorem exec_of_storeOf {i : Instr} {s : State} {a : Word} {sr : Reg} (hstore : storeOf i s = some (a, sr)) :
    exec i s = .next ((s.afterReads (readsOf i s)).memWrite a (s.reg sr)) := by
  cases i with
  | st | sti | str => cases hstore; rfl
  | _ => cases hstore

/-- The body of an instruction that stores nothing leaves the memory as its reads do (R29, R33). -/
theorem exec_mem_of_storeOf_eq_none {i : Instr} (wf : i.WellFormed) {s t : State} (hstore : storeOf i s = none)
    (h : exec i s = .next t) : t.mem = (s.afterReads (readsOf i s)).mem := by
  cases i with
  | st | sti | str => cases hstore
  | trap v =>
    rw [exec_trap_of_wellFormed wf] at h
    cases h; rfl
  | trapGetc => cases h; exact State.getcService_mem _
  | trapIn => cases h; exact State.inService_mem _
  | trapPuts => cases h; exact (State.putsService_mem _ _).trans (s.trapLink_afterRead_mem _)
  | trapPutsp => cases h; exact (State.putspService_mem _ _).trans (s.trapLink_afterRead_mem _)
  | _ => cases h; rfl

/-- Settles O15: a store writes its cell over the memory its reads left; any other body leaves what its reads left. -/
theorem onlyStoredAndPolledCellsChange : Obligations.OnlyStoredAndPolledCellsChange := by
  unfold Obligations.OnlyStoredAndPolledCellsChange
  intro i wf s t h a
  have hreads := s.afterReads_keepsMemBut (readsOf i s) a
  rcases hstore : storeOf i s with _ | ⟨b, sr⟩
  · refine ⟨nofun, fun _ hother => ?_⟩
    rw [exec_mem_of_storeOf_eq_none wf hstore h, hreads hother]
  · rw [exec_of_storeOf hstore] at h
    cases h
    rw [State.memWrite_mem, Memory.read_write]
    refine ⟨fun q hq => ?stored, fun hne hother => ?kept⟩
    case stored =>
      cases hq
      exact if_pos rfl
    case kept =>
      have hab : a ≠ b := fun hab => hne sr (by rw [hab])
      rw [if_neg hab, hreads hother]

/-! ### The word fetched next -/

/-- Below the top and off the status cell, a step runs the word that stands at PC, and the fetch changes nothing (R64). -/
theorem step_fetch_of_ne_kbsrAddr {s : State} (hrun : s.status = .running) (hidle : s.service = .idle)
    (htop : s.pc ≠ lastAddr) (hkbsr : s.pc ≠ kbsrAddr) :
    step s = exec (decode (s.mem.read s.pc)) (s.setPc (s.pc + 1#16)) := by
  rw [step_fetch hrun hidle htop, State.readValue_of_ne hkbsr, State.afterRead_of_ne hkbsr]

/-- Settles O21: the store keeps PC, the run and the service, so the next step fetches at the stored cell. -/
theorem storedWordIsFetchedNext : Obligations.StoredWordIsFetchedNext := by
  unfold Obligations.StoredWordIsFetchedNext
  intro i s t sr hstore hrun hidle htop hkbsr h
  have ht : t = (s.afterReads (readsOf i s)).memWrite s.pc (s.reg sr) :=
    Host.Outcome.next.inj (h.symm.trans (exec_of_storeOf hstore))
  have hpc : t.pc = s.pc := by simp [ht]
  have hrun' : t.status = .running := by simp [ht, hrun]
  have hidle' : t.service = .idle := by simp [ht, hidle]
  have hword : t.mem.read s.pc = s.reg sr := by simp [ht]
  rw [step_fetch_of_ne_kbsrAddr hrun' hidle' (hpc ▸ htop) (hpc ▸ hkbsr), hpc, hword, word_add_one]
  rfl

end Sys2Proof.Machine
end

section
/-! The words of an instruction: decoding reads back what the encoder writes and looks at no ignored bit (R45 to
R58). -/

namespace Sys2Proof

open Sys2Proof.Machine

/-! ### Fields read from a word and put back -/

/-- A field that holds zero is the zero word. -/
theorem field_zero (n lo : Nat) : field (0#n) lo = 0#16 := by
  simp [field]

/-- A one-bit field is that bit (R9). -/
theorem bitsAt_one (w : Word) (k : Nat) : bitsAt w k 1 = BitVec.ofBool (w.getLsbD k) := by
  apply BitVec.eq_of_getElem_eq
  intro i hi
  obtain rfl : i = 0 := by omega
  rw [getElem_bitsAt w k 1 0 hi, Nat.add_zero, BitVec.getElem_ofBool_zero]

/-- The opcode is the field [15:12] (R45). -/
theorem bitsAt_posOpcode (w : Word) : bitsAt w posOpcode 4 = opcodeOf w := rfl

/-- What a word holds in a field's place is the field, put back. -/
theorem and_span (w : Word) (lo n : Nat) : w &&& span lo n = field (bitsAt w lo n) lo := by
  apply BitVec.eq_of_getElem_eq
  intro i hi
  rw [BitVec.getElem_and, span, getElem_field _ _ _ hi, getElem_field _ _ _ hi]
  by_cases hlo : lo ≤ i
  · simp [bitsAt, hlo, hi, Bool.and_comm]
  · simp [hlo]

@[simp] theorem bitsAt_or (a b : Word) (lo n : Nat) : bitsAt (a ||| b) lo n = bitsAt a lo n ||| bitsAt b lo n :=
  BitVec.extractLsb'_or

@[simp] theorem bitsAt_and (a b : Word) (lo n : Nat) : bitsAt (a &&& b) lo n = bitsAt a lo n &&& bitsAt b lo n :=
  BitVec.extractLsb'_and

/-- A field is read back from where it was put. -/
@[simp] theorem bitsAt_field_same {n : Nat} (v : BitVec n) (lo : Nat) (hfits : lo + n ≤ 16) :
    bitsAt (field v lo) lo n = v := by
  apply BitVec.eq_of_getElem_eq
  intro i hi
  have hlt : lo + i < 16 := by omega
  simp [getElem_bitsAt, getElem_field, hi, hlt]

/-- A field put elsewhere leaves zeros. -/
@[simp] theorem bitsAt_field_of_disjoint {m : Nat} (v : BitVec m) (lo' lo n : Nat)
    (hdisjoint : lo' + m ≤ lo ∨ lo + n ≤ lo') (hfits : lo + n ≤ 16) : bitsAt (field v lo') lo n = 0#n := by
  apply BitVec.eq_of_getElem_eq
  intro i hi
  have hlt : lo + i < 16 := by omega
  rw [getElem_bitsAt _ _ _ _ hi, BitVec.getLsbD_eq_getElem hlt, getElem_field _ _ _ hlt, BitVec.getElem_zero]
  rcases hdisjoint with habove | hbelow
  · rw [BitVec.getLsbD_of_ge v _ (by omega), Bool.and_false]
  · rw [decide_eq_false (by omega), Bool.false_and]

/-! ### The words of an instruction -/

/-- `w` is a word of the instruction: but for ignored bits it is the one the assembler writes (R58). -/
def IsWordOf (w : Word) (i : Instr) : Prop := w &&& usedBits i = encode i &&& usedBits i

theorem isWordOf_encode (i : Instr) : IsWordOf (encode i) i := rfl

/-- A field of the format is the same in every word of the instruction. -/
theorem IsWordOf.bitsAt_eq {w : Word} {i : Instr} (h : IsWordOf w i) {lo n : Nat}
    (hused : bitsAt (usedBits i) lo n = BitVec.allOnes n) : bitsAt w lo n = bitsAt (encode i) lo n := by
  have hread := congrArg (bitsAt · lo n) h
  simpa only [bitsAt_and, hused, BitVec.and_allOnes] using hread

/-- A bit of the format is the same in every word of the instruction. -/
theorem IsWordOf.getElem_eq {w : Word} {i : Instr} (h : IsWordOf w i) {k : Nat} {hk : k < 16}
    (hused : (usedBits i)[k] = true) : w[k] = (encode i)[k] := by
  have hread := congrArg (·[k]) h
  simpa only [BitVec.getElem_and, hused, Bool.and_true] using hread

/-- The words of an instruction, bit by bit. -/
theorem isWordOf_iff_getLsbD {w : Word} {i : Instr} :
    IsWordOf w i ↔ ∀ k, (ignoredBits i).getLsbD k = false → (encode i).getLsbD k = w.getLsbD k := by
  constructor
  · intro h k hnot
    by_cases hk : k < 16
    · have hused : (usedBits i)[k] = true := by simpa [ignoredBits, hk] using hnot
      simpa [hk] using (h.getElem_eq hused).symm
    · rw [BitVec.getLsbD_of_ge _ _ (by omega), BitVec.getLsbD_of_ge _ _ (by omega)]
  · intro h
    apply BitVec.eq_of_getElem_eq
    intro k hk
    rw [BitVec.getElem_and, BitVec.getElem_and]
    cases hused : (usedBits i)[k] with
    | false => rw [Bool.and_false, Bool.and_false]
    | true =>
      have hbit := h k (by simp [ignoredBits, hk, hused])
      simpa [hk] using hbit.symm

theorem bitsAt_usedBits_opcode (i : Instr) : bitsAt (usedBits i) posOpcode 4 = BitVec.allOnes 4 := by
  cases i <;> simp [usedBits, span]

/-- The canonical ignored bits stand in no field of the format. -/
theorem bitsAt_ignoredBits {i : Instr} {lo n : Nat} (hused : bitsAt (usedBits i) lo n = BitVec.allOnes n) :
    bitsAt (ignoredBits i) lo n = 0#n := by
  apply BitVec.eq_of_getElem_eq
  intro k hk
  have hbit : (usedBits i).getLsbD (lo + k) = true := by
    rw [← getElem_bitsAt _ _ _ _ hk, hused, BitVec.getElem_allOnes]
  simp [getElem_bitsAt, ignoredBits, hbit]

/-! ### Every word is a word of what it decodes to -/

theorem isWordOf_of_encode_eq {w : Word} {i : Instr} (h : encode i = w &&& usedBits i) : IsWordOf w i := by
  rw [IsWordOf, h, BitVec.and_assoc, BitVec.and_self]

theorem isWordOf_of_encode_eq_or_ignoredBits {w : Word} {i : Instr}
    (h : encode i = w &&& usedBits i ||| ignoredBits i) : IsWordOf w i := by
  have hnone : ignoredBits i &&& usedBits i = 0#16 := by simp [ignoredBits, BitVec.and_comm]
  rw [IsWordOf, h, BitVec.and_or_distrib_right, hnone, BitVec.or_zero, BitVec.and_assoc, BitVec.and_self]

theorem encode_decodeTrap (v : Byte) : encode (decodeTrap v) = encodeTrap v := by
  unfold decodeTrap
  split_ifs <;> simp [encode, *]

theorem usedBits_decodeTrap (v : Byte) : usedBits (decodeTrap v) = span posOpcode 4 ||| span posVector 8 := by
  unfold decodeTrap
  split_ifs <;> rfl

/-- Form by form, the encoder puts back the fields that the decoder read; NOT's ignored bits it sets (R50). -/
theorem isWordOf_decode (w : Word) : IsWordOf w (decode w) := by
  apply decode_elim w
  case hNot =>
    intro hop
    apply isWordOf_of_encode_eq_or_ignoredBits
    simp only [encode, opBits, usedBits, BitVec.and_or_distrib_left, and_span, bitsAt_posOpcode, hop, regAt,
      Reg.toBits_ofBits]
  case hTrap =>
    intro hop
    apply isWordOf_of_encode_eq
    simp only [encode_decodeTrap, encodeTrap, opBits, usedBits_decodeTrap, BitVec.and_or_distrib_left, and_span,
      bitsAt_posOpcode, hop]
  all_goals
    intros
    apply isWordOf_of_encode_eq
    simp only [encode, opBits, usedBits, BitVec.and_or_distrib_left, and_span, bitsAt_posOpcode, bitsAt_one, regAt,
      Reg.toBits_ofBits, BitVec.ofBool_true, BitVec.ofBool_false, BitVec.ofNat_eq_ofNat, field_zero, BitVec.or_zero, *]

/-! ### Decoding a word of an instruction -/

/-- A TRAP word decodes by its vector (R54, R88). -/
theorem decode_of_opTrap {w : Word} (hop : opcodeOf w = opTrap) : decode w = decodeTrap (bitsAt w posVector 8) := by
  simp only [decode, hop]
  rfl

/-- Every word of the TRAP with this vector decodes to it (R54, R88). -/
theorem IsWordOf.decode_eq_decodeTrap {w : Word} {v : Byte} (h : IsWordOf w (decodeTrap v)) :
    decode w = decodeTrap v := by
  have hop : opcodeOf w = opTrap := by
    have hread := h.bitsAt_eq (bitsAt_usedBits_opcode _)
    simpa [encode_decodeTrap, encodeTrap, opcodeOf] using hread
  have hvector : bitsAt w posVector 8 = v := by
    have hread := h.bitsAt_eq (lo := posVector) (n := 8) (by simp [usedBits_decodeTrap, span])
    simpa [encode_decodeTrap, encodeTrap] using hread
  rw [decode_of_opTrap hop, hvector]

/-- Every word of a well-formed instruction decodes to it: each field the decoder reads is the one the encoder put
there. -/
theorem IsWordOf.decode_eq {w : Word} {i : Instr} (h : IsWordOf w i) (wf : i.WellFormed) : decode w = i := by
  have hop : opcodeOf w = bitsAt (encode i) posOpcode 4 := h.bitsAt_eq (bitsAt_usedBits_opcode i)
  have hfield := @h.bitsAt_eq
  have hbit := @h.getElem_eq
  cases i with
  | trap v =>
    have hv : decodeTrap v = .trap v := decodeTrap_invalid (isServiceVector_eq_false_of_wellFormed wf)
    rw [← hv] at h ⊢
    exact h.decode_eq_decodeTrap
  | trapGetc => exact decode_eq_decodeTrap (v := vecGetc) h
  | trapOut => exact decode_eq_decodeTrap (v := vecOut) h
  | trapPuts => exact decode_eq_decodeTrap (v := vecPuts) h
  | trapIn => exact decode_eq_decodeTrap (v := vecIn) h
  | trapPutsp => exact decode_eq_decodeTrap (v := vecPutsp) h
  | trapHalt => exact decode_eq_decodeTrap (v := vecHalt) h
  | _ =>
    simp [decode, hop, regAt, hfield, hbit, encode, usedBits, span, bitsAt_ignoredBits, getElem_field, opBr, opAdd, opLd,
      opSt, opJsr, opAnd, opLdr, opStr, opRti, opNot, opLdi, opSti, opJmp, opRes, opLea]

/-- Settles O1: the assembler's word is one of the instruction's words. -/
theorem decodeAfterEncodeIsIdentity : Obligations.DecodeAfterEncodeIsIdentity := by
  unfold Obligations.DecodeAfterEncodeIsIdentity
  exact fun i wf => (isWordOf_encode i).decode_eq wf

/-! ### Ignored bits (R58) -/

/-- The bits of no field are those the spec prints for the instruction's row (R54, R58). -/
theorem ignoredBits_eq_printedIgnored (i : Instr) : ignoredBits i = Claims.printedIgnored i.mnemonic := by
  rw [ignoredBits_eq]
  cases i <;> rfl

/-- Settles O4: a word that agrees but for ignored bits is a word of the same instruction. -/
theorem ignoredBitsDoNotMatter : Obligations.IgnoredBitsDoNotMatter := by
  unfold Obligations.IgnoredBitsDoNotMatter
  refine ⟨ignoredBits_eq_printedIgnored, fun w w' hagree => ?_⟩
  have hword : IsWordOf w' (decode w) := isWordOf_iff_getLsbD.2 fun k hk =>
    (isWordOf_iff_getLsbD.1 (isWordOf_decode w) k hk).trans (hagree k hk).symm
  exact hword.decode_eq (decode_wellFormed w)

/-! ### Decoding is total (R57) -/

/-- The spec's field, as a number, is the decoder's (R9). -/
theorem fieldNat_eq_toNat_bitsAt (w : Word) (lo n : Nat) : Claims.fieldNat w lo n = (bitsAt w lo n).toNat := by
  rw [Claims.fieldNat, bitsAt, BitVec.extractLsb'_toNat, Nat.shiftRight_eq_div_pow]

/-- The dispatcher ends no run with InvalidOpcode (R88, R94). -/
theorem trapDispatch_status_ne_invalidOpcode {s : State} (hrun : s.status = .running) (v : Byte) (op : BitVec 4)
    (p : Word) : (s.trapDispatch v).status ≠ .faulted (.invalidOpcode op p) := by
  rcases s.trapDispatch_cases v with ⟨_, e⟩ | ⟨_, e⟩ | ⟨_, e⟩ | ⟨_, e⟩ | ⟨_, e⟩ | ⟨_, e⟩ | ⟨_, e⟩ <;>
    simp [e, hrun]

/-- In a running machine only RTI and RES end with InvalidOpcode (R57, R97, R98). -/
theorem eq_rti_or_res_of_exec_invalidOpcode {i : Instr} {s t : State} {op : BitVec 4} {p : Word}
    (hrun : s.status = .running) (h : exec i s = .next t) (hfatal : t.status = .faulted (.invalidOpcode op p)) :
    i = .rti ∨ i = .res := by
  cases i with
  | rti => exact .inl rfl
  | res => exact .inr rfl
  | trap v =>
    cases h
    exact absurd hfatal (trapDispatch_status_ne_invalidOpcode (by simpa using hrun) v op p)
  | _ =>
    have hstatus := exec_status rfl h
    simp [hfatal, Claims.statusAfter, hrun] at hstatus

/-- Settles O2: each word is a word of what it decodes to, and the body of no other instruction raises InvalidOpcode. -/
theorem everyWordDecodes : Obligations.EveryWordDecodes := by
  unfold Obligations.EveryWordDecodes
  refine ⟨fun w => ⟨decode_wellFormed w, isWordOf_iff_getLsbD.1 (isWordOf_decode w), ?opcode⟩, ?invalidOpcode⟩
  case opcode =>
    rw [fieldNat_eq_toNat_bitsAt, fieldNat_eq_toNat_bitsAt]
    exact congrArg BitVec.toNat ((isWordOf_decode w).bitsAt_eq (bitsAt_usedBits_opcode _)).symm
  case invalidOpcode => exact fun i s t op p => eq_rti_or_res_of_exec_invalidOpcode

/-- Settles O5: the decoder evaluated at each word. -/
theorem sampleWordsDecodeAsWritten : Obligations.SampleWordsDecodeAsWritten := by
  unfold Obligations.SampleWordsDecodeAsWritten
  decide

/-! ### The opcode map (R55) -/

theorem OpcodeRow.covers_iff {row : OpcodeRow} {w : Word} : row.covers w = true ↔ w &&& row.mask = row.bits :=
  beq_iff_eq

/-- A row's mask holds bits of its own format alone (R55, R58). -/
theorem usedBits_and_mask {row : OpcodeRow} (hrow : row ∈ opcodeTable) {i : Instr} (hi : row.mnemonic = i.mnemonic) :
    usedBits i &&& row.mask = row.mask := by
  have hused : usedBits i = ~~~ Claims.printedIgnored row.mnemonic := by
    rw [hi, ← ignoredBits_eq_printedIgnored, ignoredBits, BitVec.not_not]
  have htable : ∀ row ∈ opcodeTable, ~~~ Claims.printedIgnored row.mnemonic &&& row.mask = row.mask := by decide
  rw [hused, htable row hrow]

/-- A row that covers one word of its instruction covers them all. -/
theorem IsWordOf.covers {w : Word} {i : Instr} (h : IsWordOf w i) {row : OpcodeRow} (hrow : row ∈ opcodeTable)
    (hi : row.mnemonic = i.mnemonic) (hcovers : row.covers (encode i) = true) : row.covers w = true := by
  rw [OpcodeRow.covers_iff] at hcovers ⊢
  calc w &&& row.mask = w &&& usedBits i &&& row.mask := by rw [BitVec.and_assoc, usedBits_and_mask hrow hi]
    _ = encode i &&& usedBits i &&& row.mask := by rw [h]
    _ = row.bits := by rw [BitVec.and_assoc, usedBits_and_mask hrow hi, hcovers]

/-- The word the encoder writes belongs to the instruction's own row (R55). -/
theorem exists_row_covers_encode (i : Instr) (wf : i.WellFormed) :
    ∃ row ∈ opcodeTable, row.mnemonic = i.mnemonic ∧ row.covers (encode i) = true := by
  have hrow : Laws.EncodingRow.Statement i :=
    match i with
    | .br n z p off => Laws.EncodingRow.br n z p off
    | .add dr sr1 sr2 => Laws.EncodingRow.add dr sr1 sr2
    | .addi dr sr1 imm => Laws.EncodingRow.addi dr sr1 imm
    | .ld dr off => Laws.EncodingRow.ld dr off
    | .st sr off => Laws.EncodingRow.st sr off
    | .jsrr base => Laws.EncodingRow.jsrr base
    | .jsr off => Laws.EncodingRow.jsr off
    | .and dr sr1 sr2 => Laws.EncodingRow.and dr sr1 sr2
    | .andi dr sr1 imm => Laws.EncodingRow.andi dr sr1 imm
    | .ldr dr base off => Laws.EncodingRow.ldr dr base off
    | .str sr base off => Laws.EncodingRow.str sr base off
    | .rti => Laws.EncodingRow.rti
    | .not dr sr => Laws.EncodingRow.not dr sr
    | .ldi dr off => Laws.EncodingRow.ldi dr off
    | .sti sr off => Laws.EncodingRow.sti sr off
    | .jmp base => Laws.EncodingRow.jmp base
    | .res => Laws.EncodingRow.res
    | .lea dr off => Laws.EncodingRow.lea dr off
    | .trap v => Laws.EncodingRow.trap v
    | .trapGetc => Laws.EncodingRow.trapGetc
    | .trapOut => Laws.EncodingRow.trapOut
    | .trapPuts => Laws.EncodingRow.trapPuts
    | .trapIn => Laws.EncodingRow.trapIn
    | .trapPutsp => Laws.EncodingRow.trapPutsp
    | .trapHalt => Laws.EncodingRow.trapHalt
  exact hrow wf

/-- Every word lies in the row of what it decodes to (R55, R57). -/
theorem exists_row_covers (w : Word) :
    ∃ row ∈ opcodeTable, row.covers w = true ∧ row.mnemonic = (decode w).mnemonic := by
  obtain ⟨row, hrow, hi, hcovers⟩ := exists_row_covers_encode (decode w) (decode_wellFormed w)
  exact ⟨row, hrow, (isWordOf_decode w).covers hrow hi hcovers, hi⟩

/-- A row whose mask is opcode and vector is one service's, so every word it covers decodes to that service (R55, R88). -/
theorem mnemonic_eq_of_covers_of_vectorMask {row : OpcodeRow} (hrow : row ∈ opcodeTable)
    (hmask : row.mask = 0xF0FF#16) {w : Word} (hcovers : row.covers w = true) :
    row.mnemonic = (decode w).mnemonic := by
  have htable : ∀ row ∈ opcodeTable, row.mask = 0xF0FF#16 →
      encode (decode row.bits) = row.bits ∧ usedBits (decode row.bits) = row.mask ∧
        row.mnemonic = (decode row.bits).mnemonic := by decide
  obtain ⟨hbits, hused, hmnemonic⟩ := htable row hrow hmask
  have hword : IsWordOf w (decode row.bits) := isWordOf_of_encode_eq (by
    rw [hbits, hused, OpcodeRow.covers_iff.1 hcovers])
  rw [hword.decode_eq (decode_wellFormed _), hmnemonic]

/-- Two rows that cover a word ask for the same bits where both masks look. -/
theorem bits_and_mask_eq_of_covers {row own : OpcodeRow} {w : Word} (hrow : row.covers w = true)
    (hown : own.covers w = true) : row.bits &&& own.mask = own.bits &&& row.mask := by
  rw [← OpcodeRow.covers_iff.1 hrow, ← OpcodeRow.covers_iff.1 hown, BitVec.and_assoc, BitVec.and_assoc,
    BitVec.and_comm row.mask]

/-- Rows overlap only at a service, and there the row with more mask bits is the service's (R55). -/
theorem mnemonic_eq_or_vectorMask_of_overlap : ∀ row ∈ opcodeTable, ∀ own ∈ opcodeTable,
    row.bits &&& own.mask = own.bits &&& row.mask → Claims.maskBits own.mask ≤ Claims.maskBits row.mask →
    row.mnemonic = own.mnemonic ∨ row.mask = 0xF0FF#16 := by
  decide

/-- Settles O3: the covering row with the most mask bits is the decoded instruction's own, or a service's. -/
theorem decoderFollowsOpcodeMap : Obligations.DecoderFollowsOpcodeMap := by
  unfold Obligations.DecoderFollowsOpcodeMap
  refine ⟨opcodeTable_eq, fun w => ⟨exists_row_covers w, fun row hrow hcovers hmost => ?_⟩⟩
  obtain ⟨own, hown, hcoversOwn, hmnemonic⟩ := exists_row_covers w
  have hoverlap := bits_and_mask_eq_of_covers hcovers hcoversOwn
  rcases mnemonic_eq_or_vectorMask_of_overlap row hrow own hown hoverlap (hmost own hown hcoversOwn) with hsame | hmask
  · exact hsame.trans hmnemonic
  · exact mnemonic_eq_of_covers_of_vectorMask hrow hmask hcovers

end Sys2Proof
end

section
/-! The cycle (R63 to R68): in which states there is a step, and which of the four stages it runs. -/

namespace Sys2Proof.Machine

open Sys2Proof.Claims

/-! ### What a step is, by the state it starts from -/

/-- A run that has ended normally has no step (R63, R99). -/
theorem step_of_halted {s : State} {why : HaltReason} (h : s.status = .halted why) : step s = .fault (.ended why) := by
  simp [step, State.cyclePlan, h]

/-- A run that has ended with a fatal error has no step (R63, R102). -/
theorem step_of_faulted {s : State} {what : Fatal} (h : s.status = .faulted what) :
    step s = .fault (.fatal what) := by
  simp [step, State.cyclePlan, h]

/-- 0xFFFF is not the status cell, so the fetch there polls nothing. -/
theorem State.afterRead_lastAddr (s : State) : s.afterRead lastAddr = s := State.afterRead_of_ne (by decide)

/-- At 0xFFFF between services the step ends the run and does nothing else (R66). -/
theorem step_top {s : State} (hrun : s.status = .running) (hidle : s.service = .idle) (htop : s.pc = lastAddr) :
    step s = .next (s.halt .pcBound) := by
  simp [step, State.cyclePlan, State.fetchPlan, hrun, hidle, htop, State.afterRead_lastAddr]

/-- Every instruction's body answers a next state (R67). -/
theorem exists_exec_eq_next (i : Instr) (s : State) : ∃ t, exec i s = .next t := by
  cases i <;> exact ⟨_, rfl⟩

/-- A body run while the machine is running does not end the run at the PC bound (R26, R66). -/
theorem exec_status_ne_pcBound {i : Instr} (wf : i.WellFormed) {s t : State} (hrun : s.status = .running)
    (h : exec i s = .next t) : t.status ≠ .halted .pcBound := by
  rcases exec_status_cases wf h with e | ⟨_, rfl⟩ | ⟨_, rfl⟩ | ⟨_, rfl⟩ | ⟨v, _, _, rfl⟩
  · simp [e, hrun]
  all_goals simp

/-- Settles O10: the inversion of a step, and the two ended states' own equations. -/
theorem endedStatesHaveNoStep : Obligations.EndedStatesHaveNoStep := by
  unfold Obligations.EndedStatesHaveNoStep
  exact ⟨fun _ _ h => (step_next_cases h).1, fun _ _ => step_of_halted, fun _ _ => step_of_faulted⟩

/-- Settles O7: the equations of the step at the top and below it, and of a read off the status cell. -/
theorem stepRunsTheDecodedInstruction : Obligations.StepRunsTheDecodedInstruction := by
  unfold Obligations.StepRunsTheDecodedInstruction
  intro s hrun hidle
  refine ⟨fun htop => ?top, fun hbelow => ⟨decode_wellFormed _, ?body⟩,
    fun hkbsr => ⟨State.readValue_of_ne hkbsr, State.afterRead_of_ne hkbsr⟩⟩
  case top =>
    have hread : s.afterRead s.pc = s := htop ▸ s.afterRead_lastAddr
    rw [step_top hrun hidle htop, hread]
    rfl
  case body =>
    rw [step_fetch hrun hidle hbelow, word_add_one]
    rfl

/-- Settles O9: the bound check's own step, and no body enters HALTED(PC_BOUND). -/
theorem pcBoundEndsTheRunAtTheTop : Obligations.PcBoundEndsTheRunAtTheTop := by
  unfold Obligations.PcBoundEndsTheRunAtTheTop
  refine ⟨fun s hrun hidle => ⟨?onlyAtTop, fun htop => ⟨_, step_top hrun hidle htop, rfl⟩⟩,
    fun s hrun hidle htop => ?frame⟩
  case onlyAtTop =>
    rintro ⟨t, h, hbound⟩
    by_contra hbelow
    rw [step_fetch hrun hidle hbelow] at h
    exact exec_status_ne_pcBound (decode_wellFormed _) (by simpa using hrun) h hbound
  case frame =>
    exact ⟨_, step_top hrun hidle htop, rfl, htop, fun _ _ => rfl, rfl, fun _ => rfl, ⟨rfl, rfl, rfl⟩, hidle⟩

/-- Settles O11: a waiting machine has no step; otherwise the service goes on, the bound check fires or a body runs. -/
theorem runningStatesHaveAStep : Obligations.RunningStatesHaveAStep := by
  unfold Obligations.RunningStatesHaveAStep
  intro s hrun
  rw [← State.waits_iff]
  constructor
  · rintro ⟨t, h⟩ hwaits
    rw [step_waiting hrun hwaits] at h
    cases h
  · intro hwaits
    by_cases hidle : s.service = .idle
    · by_cases htop : s.pc = lastAddr
      · exact ⟨_, step_top hrun hidle htop⟩
      · rw [step_fetch hrun hidle htop]
        exact exists_exec_eq_next _ _
    · exact ⟨_, step_service hrun hidle (Bool.eq_false_of_not_eq_true hwaits)⟩

/-! ### A byte accepted by GETC or IN (R89, R92) -/

/-- A zero-extended byte is never negative, so COND says only whether it is zero (R17, D16). -/
theorem condOf_zext (k : Byte) : condOf (zext k) = if k = 0#8 then .zro else .pos := by
  revert k; decide

/-- Accepting a byte puts it into R0, sets COND and ends the service; memory, input, polls and status are kept. -/
theorem State.acceptKey_keyAccepted (s : State) (k : Byte) : keyAccepted s (s.acceptKey k) k s.kbdIn :=
  ⟨zext_eq_wordOfByte k, condOf_zext k, rfl, fun _ => rfl, rfl, rfl, rfl⟩

/-- Accepting a byte writes no register but R0. -/
theorem State.acceptKey_keepsRegs (s : State) (k : Byte) : keepsRegs s (s.acceptKey k) [.r0] := by
  intro q hq
  rw [State.acceptKey_reg, if_neg (by simpa using hq)]

/-- With a byte there, the step of a waiting GETC takes it and accepts it (R68, R89). -/
theorem step_getc_of_cons {s : State} {k : Byte} {rest : List Byte} (hrun : s.status = .running)
    (hgetc : s.service = .getc) (hk : s.kbdIn = k :: rest) : step s = .next ((s.keyTaken rest).acceptKey k) := by
  rw [step_service hrun (by simp [hgetc]) (by simp [State.waits, hk])]
  simp [State.resume, State.getcService, hgetc, hk]

/-- With a byte there, the step of a waiting IN takes it, echoes it and accepts it (R68, R92). -/
theorem step_inChar_of_cons {s : State} {k : Byte} {rest : List Byte} (hrun : s.status = .running)
    (hin : s.service = .inChar) (hk : s.kbdIn = k :: rest) :
    step s = .next (((s.keyTaken rest).writeChar k).acceptKey k) := by
  rw [step_service hrun (by simp [hin]) (by simp [State.waits, hk])]
  simp [State.resume, State.inService, hin, hk]

/-- Settles O53: the wait has no next step, and the byte ends it by the law of accepting a byte. -/
theorem waitingServiceEndsWithTheByte : Obligations.WaitingServiceEndsWithTheByte := by
  unfold Obligations.WaitingServiceEndsWithTheByte
  refine ⟨fun s hrun hservice hk => step_waiting hrun (State.waits_iff.2 ⟨hservice, hk⟩),
    fun s k rest hrun hgetc hk => ?getc, fun s k rest hrun hin hk => ?inChar⟩
  case getc =>
    exact ⟨_, step_getc_of_cons hrun hgetc hk, (s.keyTaken rest).acceptKey_keyAccepted k, rfl,
      (s.keyTaken rest).acceptKey_keepsRegs k, rfl⟩
  case inChar =>
    exact ⟨_, step_inChar_of_cons hrun hin hk, ((s.keyTaken rest).writeChar k).acceptKey_keyAccepted k, rfl,
      ((s.keyTaken rest).writeChar k).acceptKey_keepsRegs k, rfl⟩

end Sys2Proof.Machine
end

section
/-! The words of a row of the opcode map, field by field (R9, R55, R56), and the decoding of the operate opcodes (R48 to
R50). -/

namespace Sys2Proof

open Sys2Proof.Machine

/-! ### The spec's fields are the decoder's (R9, R56) -/

theorem valField_eq_bitsAt (w : Word) (lo n : Nat) : Claims.valField w lo n = bitsAt w lo n := by
  rw [Claims.valField, fieldNat_eq_toNat_bitsAt, BitVec.ofNat_toNat, BitVec.setWidth_eq]

theorem regField_eq_regAt (w : Word) (lo : Nat) : Claims.regField w lo = regAt w lo := by
  rw [Claims.regField, fieldNat_eq_toNat_bitsAt, regAt]
  generalize bitsAt w lo 3 = b
  revert b
  decide

/-! ### What a row's mask fixes of its words (R55) -/

/-- A bit that the mask looks at is the row's own. -/
theorem getLsbD_eq_of_and_eq {w mask bits : Word} (hrow : w &&& mask = bits) {k : Nat}
    (hmask : mask.getLsbD k = true) : w.getLsbD k = bits.getLsbD k := by
  rw [← hrow, BitVec.getLsbD_and, hmask, Bool.and_true]

/-- A mask that holds [15:12] fixes the opcode. -/
theorem opcodeOf_eq_of_and_eq {w mask bits : Word} (hrow : w &&& mask = bits)
    (hmask : opcodeOf mask = BitVec.allOnes 4) : opcodeOf w = opcodeOf bits := by
  calc opcodeOf w = opcodeOf w &&& opcodeOf mask := by rw [hmask, BitVec.and_allOnes]
    _ = opcodeOf bits := by rw [← hrow]; exact (bitsAt_and w mask posOpcode 4).symm

/-! ### The operate opcodes -/

/-- A word with ADD's opcode decodes by its mode bit (R48, R49). -/
theorem decode_of_opAdd {w : Word} (hop : opcodeOf w = opAdd) :
    decode w = if w.getLsbD 5 then .addi (Claims.regField w 9) (Claims.regField w 6) (Claims.valField w 0 5)
      else .add (Claims.regField w 9) (Claims.regField w 6) (Claims.regField w 0) := by
  simp only [decode, hop, regField_eq_regAt, valField_eq_bitsAt]
  rfl

/-- A word with AND's opcode decodes by its mode bit (R48, R49). -/
theorem decode_of_opAnd {w : Word} (hop : opcodeOf w = opAnd) :
    decode w = if w.getLsbD 5 then .andi (Claims.regField w 9) (Claims.regField w 6) (Claims.valField w 0 5)
      else .and (Claims.regField w 9) (Claims.regField w 6) (Claims.regField w 0) := by
  simp only [decode, hop, regField_eq_regAt, valField_eq_bitsAt]
  rfl

/-- A word with NOT's opcode is NOT, whatever its bits [5:0] (R50, R58). -/
theorem decode_of_opNot {w : Word} (hop : opcodeOf w = opNot) :
    decode w = .not (Claims.regField w 9) (Claims.regField w 6) := by
  simp only [decode, hop, regField_eq_regAt]
  rfl

end Sys2Proof
end

section
/-! The operate instructions (41_operate.md): each writes one word to DR through the write port with flags, so one law
of that write serves all five. -/

namespace Sys2Proof.Machine

open Sys2Proof.Claims

theorem State.setReg_reg_same (s : State) (r : Reg) (v : Word) (u : Bool) : (s.setReg r v u).reg r = v := by
  rw [State.setReg_reg, if_pos rfl]

/-- The write port with flags puts the word into DR, sets COND from it and keeps everything else (R17, R74). -/
theorem State.setReg_operateResult (s : State) (dr : Reg) (v : Word) :
    operateResult s (s.setReg dr v true) dr v := by
  have hkept : keepsRegs s (s.setReg dr v true) [dr] := fun q hq => by
    rw [State.setReg_reg, if_neg (by simpa using hq)]
  exact ⟨⟨s.setReg_reg_same dr v true, condOf_eq_flagOf v, hkept, rfl, rfl, rfl⟩, fun _ => rfl, rfl, rfl, rfl⟩

/-- The complement of a word as R73's number. -/
theorem not_eq_ofNat_sub (w : Word) : ~~~w = BitVec.ofNat 16 (65535 - w.toNat) := by
  apply BitVec.eq_of_toNat_eq
  rw [BitVec.toNat_not, BitVec.toNat_ofNat, Nat.mod_eq_of_lt (by omega)]

/-- Settles O28: the opcode and a clear mode bit select the row; the sum of two words is the sum of their numbers. -/
theorem addRegisterResult : Obligations.AddRegisterResult := by
  unfold Obligations.AddRegisterResult
  refine ⟨fun w hw => ?row, fun dr sr1 sr2 s => ⟨_, rfl, ?result⟩⟩
  case row =>
    have hmode : w.getLsbD 5 = false := getLsbD_eq_of_and_eq hw rfl
    exact (decode_of_opAdd (opcodeOf_eq_of_and_eq hw rfl)).trans (if_neg (Bool.eq_false_iff.1 hmode))
  case result =>
    rw [← BitVec.add_def]
    exact s.setReg_operateResult dr _

/-- Settles O29: the opcode and a set mode bit select the row; the sum is R10's sum with an extended offset. -/
theorem addImmediateResult : Obligations.AddImmediateResult := by
  unfold Obligations.AddImmediateResult
  refine ⟨fun w hw => ?row, fun dr sr1 imm s => ⟨_, rfl, ?result⟩⟩
  case row =>
    have hmode : w.getLsbD 5 = true := getLsbD_eq_of_and_eq hw rfl
    exact (decode_of_opAdd (opcodeOf_eq_of_and_eq hw rfl)).trans (if_pos hmode)
  case result =>
    rw [← target, ← add_sext_eq_target (s.reg sr1) imm (by decide)]
    exact s.setReg_operateResult dr _

/-- Settles O30: the row as for ADD; DR reads back the bitwise and of the two sources. -/
theorem andRegisterResult : Obligations.AndRegisterResult := by
  unfold Obligations.AndRegisterResult
  refine ⟨fun w hw => ?row, fun dr sr1 sr2 s => ⟨_, rfl, ?result⟩⟩
  case row =>
    have hmode : w.getLsbD 5 = false := getLsbD_eq_of_and_eq hw rfl
    exact (decode_of_opAnd (opcodeOf_eq_of_and_eq hw rfl)).trans (if_neg (Bool.eq_false_iff.1 hmode))
  case result =>
    rw [State.setReg_reg_same]
    exact ⟨fun k => BitVec.getLsbD_and, s.setReg_operateResult dr _⟩

/-- Settles O31: the row as for ADD; the immediate is the word of R11's number. -/
theorem andImmediateResult : Obligations.AndImmediateResult := by
  unfold Obligations.AndImmediateResult
  refine ⟨fun w hw => ?row, fun dr sr1 imm s => ⟨_, rfl, ?result⟩⟩
  case row =>
    have hmode : w.getLsbD 5 = true := getLsbD_eq_of_and_eq hw rfl
    exact (decode_of_opAnd (opcodeOf_eq_of_and_eq hw rfl)).trans (if_pos hmode)
  case result =>
    rw [← sext_eq_ofNat_sextNat imm (by decide)]
    exact s.setReg_operateResult dr _

/-- Settles O32: the opcode alone selects the row; the complement is R73's number. -/
theorem notResult : Obligations.NotResult := by
  unfold Obligations.NotResult
  refine ⟨fun w hw => ?row, fun dr sr s => ⟨_, rfl, ?result⟩⟩
  case row => exact decode_of_opNot (opcodeOf_eq_of_and_eq hw rfl)
  case result =>
    rw [← not_eq_ofNat_sub]
    exact s.setReg_operateResult dr _

end Sys2Proof.Machine
end

section
/-! Control transfer (42_control.md): the decoding of its opcodes (R51, R53), and the two shapes of its bodies, a jump
and a jump after the link in R7. What PC becomes is R21's table (`exec_pc`). -/

namespace Sys2Proof

open Sys2Proof.Machine

/-! ### The words of the control rows -/

theorem bitField_eq_getLsbD (w : Word) (k : Nat) : Claims.bitField w k = w.getLsbD k := by
  rw [Claims.bitField, fieldNat_eq_toNat_bitsAt, bitsAt_one]
  cases w.getLsbD k <;> rfl

/-- A word with BR's opcode is BR (R51). -/
theorem decode_of_opBr {w : Word} (hop : opcodeOf w = opBr) :
    decode w = .br (Claims.bitField w 11) (Claims.bitField w 10) (Claims.bitField w 9) (Claims.valField w 0 9) := by
  simp only [decode, hop, bitField_eq_getLsbD, valField_eq_bitsAt]
  rfl

/-- A word with JMP's opcode is JMP, whatever its bits [11:9] and [5:0] (R53, R58). -/
theorem decode_of_opJmp {w : Word} (hop : opcodeOf w = opJmp) : decode w = .jmp (Claims.regField w 6) := by
  simp only [decode, hop, regField_eq_regAt]
  rfl

/-- A word with the opcode of JSR and JSRR decodes by its bit 11 (R53). -/
theorem decode_of_opJsr {w : Word} (hop : opcodeOf w = opJsr) :
    decode w = if w.getLsbD 11 then .jsr (Claims.valField w 0 11) else .jsrr (Claims.regField w 6) := by
  simp only [decode, hop, regField_eq_regAt, valField_eq_bitsAt]
  rfl

end Sys2Proof

namespace Sys2Proof.Machine

open Sys2Proof.Claims

/-! ### What the two shapes of a transfer keep -/

theorem State.setPc_controlResult (s : State) (a : Word) : controlResult s (s.setPc a) a :=
  ⟨rfl, rfl, fun _ => rfl, ⟨rfl, rfl, rfl⟩, rfl, rfl⟩

theorem State.setPc_keepsRegs (s : State) (a : Word) : keepsRegs s (s.setPc a) [] := fun q _ => s.setPc_reg a q

/-- The link sets no flag, so a jump after it changes R7 and PC alone (R17, R77). -/
theorem State.link_setPc_controlResult (s : State) (a : Word) :
    controlResult s ((s.setReg .r7 s.pc false).setPc a) a :=
  ⟨rfl, rfl, fun _ => rfl, ⟨rfl, rfl, rfl⟩, rfl, rfl⟩

theorem State.link_setPc_r7 (s : State) (a : Word) : ((s.setReg .r7 s.pc false).setPc a).reg .r7 = s.pc :=
  s.setReg_reg_same .r7 s.pc false

theorem State.link_setPc_keepsRegs (s : State) (a : Word) :
    keepsRegs s ((s.setReg .r7 s.pc false).setPc a) [.r7] := fun q hq => by
  rw [State.setPc_reg, State.setReg_reg, if_neg (by simpa using hq)]

/-- PC after a body that only transfers control is R21's, so its control result is to that PC. -/
theorem controlResult_pcAfter {i : Instr} {s t : State} (h : exec i s = .next t) (kept : controlResult s t t.pc) :
    controlResult s t (pcAfter i s) :=
  exec_pc h ▸ kept

/-! ### The four instructions -/

/-- Settles O33: the opcode selects the row; R21's table has BR's two targets. -/
theorem branchResult : Obligations.BranchResult := by
  unfold Obligations.BranchResult
  refine ⟨fun w hw => ?row, fun n z p off s => ⟨_, rfl, ?control, s.setPc_keepsRegs _⟩⟩
  case row => exact decode_of_opBr (opcodeOf_eq_of_and_eq hw rfl)
  case control => exact controlResult_pcAfter (i := .br n z p off) rfl (s.setPc_controlResult _)

/-- Settles O34: the opcode selects the row; the jump goes to the base register. -/
theorem jumpResult : Obligations.JumpResult := by
  unfold Obligations.JumpResult
  refine ⟨fun w hw => ?row, fun base s => ⟨_, rfl, ?control, s.setPc_keepsRegs _⟩⟩
  case row => exact decode_of_opJmp (opcodeOf_eq_of_and_eq hw rfl)
  case control => exact s.setPc_controlResult (s.reg base)

/-- Settles O35: the opcode and a set bit 11 select the row; the target is taken from the incremented PC. -/
theorem jsrLinksAndJumps : Obligations.JsrLinksAndJumps := by
  unfold Obligations.JsrLinksAndJumps
  refine ⟨fun w hw => ?row, fun off s => ⟨_, rfl, ?control, s.link_setPc_r7 _, s.link_setPc_keepsRegs _⟩⟩
  case row =>
    have hmode : w.getLsbD 11 = true := getLsbD_eq_of_and_eq hw rfl
    exact (decode_of_opJsr (opcodeOf_eq_of_and_eq hw rfl)).trans (if_pos hmode)
  case control => exact controlResult_pcAfter (i := .jsr off) rfl (s.link_setPc_controlResult _)

/-- Settles O36: the opcode and a clear bit 11 select the row; the base is read after the link, which R7 then holds. -/
theorem jsrrLinksThenReadsTheBase : Obligations.JsrrLinksThenReadsTheBase := by
  unfold Obligations.JsrrLinksThenReadsTheBase
  refine ⟨fun w hw => ?row, fun base s => ⟨_, rfl, ?control, s.link_setPc_r7 _, s.link_setPc_keepsRegs _⟩⟩
  case row =>
    have hmode : w.getLsbD 11 = false := getLsbD_eq_of_and_eq hw rfl
    exact (decode_of_opJsr (opcodeOf_eq_of_and_eq hw rfl)).trans (if_neg (Bool.eq_false_iff.1 hmode))
  case control => exact controlResult_pcAfter (i := .jsrr base) rfl (s.link_setPc_controlResult _)

end Sys2Proof.Machine
end

section
/-! The words of the load and store rows (R51, R52): the opcode names the instruction, every other bit is an operand's. -/

namespace Sys2Proof

open Sys2Proof.Machine

/-- The opcodes of format OFF9 with a register in [11:9], each with its instruction (R51, R55). -/
inductive RegOffset9Row : BitVec 4 → (Reg → BitVec 9 → Instr) → Prop
  | ld : RegOffset9Row opLd .ld
  | ldi : RegOffset9Row opLdi .ldi
  | lea : RegOffset9Row opLea .lea
  | st : RegOffset9Row opSt .st
  | sti : RegOffset9Row opSti .sti

/-- The opcodes of the base + offset format, each with its instruction (R52, R55). -/
inductive BaseOffset6Row : BitVec 4 → (Reg → Reg → BitVec 6 → Instr) → Prop
  | ldr : BaseOffset6Row opLdr .ldr
  | str : BaseOffset6Row opStr .str

/-- A word with an opcode of format OFF9 is that opcode's instruction (R51). -/
theorem RegOffset9Row.decode_eq {op : BitVec 4} {mk : Reg → BitVec 9 → Instr} (hrow : RegOffset9Row op mk) {w : Word}
    (hop : opcodeOf w = op) : decode w = mk (Claims.regField w 9) (Claims.valField w 0 9) := by
  cases hrow <;> (simp only [decode, hop, regField_eq_regAt, valField_eq_bitsAt]; rfl)

/-- A word with an opcode of the base + offset format is that opcode's instruction (R52). -/
theorem BaseOffset6Row.decode_eq {op : BitVec 4} {mk : Reg → Reg → BitVec 6 → Instr} (hrow : BaseOffset6Row op mk)
    {w : Word} (hop : opcodeOf w = op) :
    decode w = mk (Claims.regField w 9) (Claims.regField w 6) (Claims.valField w 0 6) := by
  cases hrow <;> (simp only [decode, hop, regField_eq_regAt, valField_eq_bitsAt]; rfl)

/-- A row of format OFF9 with the opcode's mask decodes to its instruction (R51, R55). -/
theorem RegOffset9Row.rowDecodes {op : BitVec 4} {mk : Reg → BitVec 9 → Instr} (hrow : RegOffset9Row op mk)
    {bits : Word} (hop : opcodeOf bits = op) :
    Claims.rowDecodes bits 0xF000#16 (fun w => mk (Claims.regField w 9) (Claims.valField w 0 9)) :=
  fun _ hw => hrow.decode_eq ((opcodeOf_eq_of_and_eq hw rfl).trans hop)

/-- A row of the base + offset format with the opcode's mask decodes to its instruction (R52, R55). -/
theorem BaseOffset6Row.rowDecodes {op : BitVec 4} {mk : Reg → Reg → BitVec 6 → Instr} (hrow : BaseOffset6Row op mk)
    {bits : Word} (hop : opcodeOf bits = op) :
    Claims.rowDecodes bits 0xF000#16
      (fun w => mk (Claims.regField w 9) (Claims.regField w 6) (Claims.valField w 0 6)) :=
  fun _ hw => hrow.decode_eq ((opcodeOf_eq_of_and_eq hw rfl).trans hop)

end Sys2Proof
end

section
/-! Loads and stores (43_load_store.md): a body makes its reads one after the other, then writes one register with flags
or one cell, so one law of each of the two writes serves the seven instructions. -/

namespace Sys2Proof.Machine

open Sys2Proof.Claims

/-! ### What the reads of a body keep (R29, R39) -/

@[simp] theorem State.afterReads_cond (s : State) (reads : List Word) : (s.afterReads reads).cond = s.cond :=
  State.afterReads_kept State.cond State.afterRead_cond s reads
@[simp] theorem State.afterReads_conOut (s : State) (reads : List Word) : (s.afterReads reads).conOut = s.conOut :=
  State.afterReads_kept State.conOut State.afterRead_conOut s reads
@[simp] theorem State.afterReads_reg (s : State) (reads : List Word) (q : Reg) : (s.afterReads reads).reg q = s.reg q :=
  State.afterReads_kept (State.reg · q) (fun u a => u.afterRead_reg a q) s reads

/-! ### The end of a load and the end of a store -/

/-- The state at the end of a load that made these reads: the word `v` in DR, COND from it. -/
def State.loaded (s : State) (reads : List Word) (dr : Reg) (v : Word) : State := (s.afterReads reads).setReg dr v true

/-- After the reads, the write port with flags puts the word into DR, sets COND from it and keeps every other register,
PC and the run (R17). -/
theorem State.loaded_dataResult (s : State) (reads : List Word) (dr : Reg) (v : Word) :
    dataResult s (s.loaded reads dr v) dr v := by
  obtain ⟨⟨hdr, hcond, hregs, hpc, hstatus, hservice⟩, -, -⟩ := (s.afterReads reads).setReg_operateResult dr v
  exact ⟨hdr, hcond, fun q hq => (hregs q hq).trans (s.afterReads_reg reads q), hpc.trans (s.afterReads_pc reads),
    hstatus.trans (s.afterReads_status reads), hservice.trans (s.afterReads_service reads)⟩

/-- A register write leaves the memory, the input and the polls as the reads before it did (R29). -/
theorem State.loaded_readsOnly (s : State) (reads : List Word) (dr : Reg) (v : Word) :
    readsOnly s (s.loaded reads dr v) (s.afterReads reads) :=
  ⟨fun _ => rfl, rfl, rfl, s.afterReads_conOut reads⟩

/-- A load changes a cell only by a poll of its reads (R29, R39). -/
theorem State.loaded_keepsMemBut (s : State) (reads : List Word) (dr : Reg) (v : Word) :
    keepsMemBut s (s.loaded reads dr v) reads :=
  s.afterReads_keepsMemBut reads

/-- A store after the reads puts the word into its cell, leaves the others as the reads did, and keeps the rest (R33). -/
theorem State.afterReads_memWrite_storeResult (s : State) (reads : List Word) (a v : Word) :
    storeResult s ((s.afterReads reads).memWrite a v) (s.afterReads reads) a v := by
  refine ⟨?stored, fun b hb => ?kept, fun q _ => s.afterReads_reg reads q, s.afterReads_pc reads,
    s.afterReads_cond reads, rfl, rfl, s.afterReads_conOut reads, s.afterReads_status reads, s.afterReads_service reads⟩
  case stored => rw [State.memWrite_mem, Memory.read_write, if_pos rfl]
  case kept => rw [State.memWrite_mem, Memory.read_write, if_neg hb]

/-- A body that makes its reads and then loads `v` into DR answers the result of a load (R80 to R82). -/
theorem exec_loadResult {i : Instr} {s : State} {dr : Reg} {v : Word}
    (hload : exec i s = .next (s.loaded (readsOf i s) dr v)) :
    ∃ t, exec i s = .next t ∧ dataResult s t dr v ∧ readsOnly s t (s.afterReads (readsOf i s)) ∧
      keepsMemBut s t (readsOf i s) :=
  ⟨_, hload, s.loaded_dataResult _ dr v, s.loaded_readsOnly _ dr v, s.loaded_keepsMemBut _ dr v⟩

/-- The body of a store instruction answers the result of a store, after its reads (R84 to R86). -/
theorem exec_storeResult {i : Instr} {s : State} {a : Word} {sr : Reg} (hstore : storeOf i s = some (a, sr)) :
    ∃ t, exec i s = .next t ∧ storeResult s t (s.afterReads (readsOf i s)) a (s.reg sr) :=
  ⟨_, exec_of_storeOf hstore, s.afterReads_memWrite_storeResult (readsOf i s) a (s.reg sr)⟩

/-! ### The seven instructions -/

/-- Settles O37: the opcode selects the row; LD's one read is at the PC-relative address. -/
theorem loadResult : Obligations.LoadResult := by
  unfold Obligations.LoadResult
  exact ⟨RegOffset9Row.ld.rowDecodes rfl, fun dr off _ => exec_loadResult (i := .ld dr off) rfl⟩

/-- Settles O38: the opcode selects the row; LDI reads the pointer and then, where that read left off, at it. -/
theorem loadIndirectResult : Obligations.LoadIndirectResult := by
  unfold Obligations.LoadIndirectResult
  exact ⟨RegOffset9Row.ldi.rowDecodes rfl, fun dr off _ => exec_loadResult (i := .ldi dr off) rfl⟩

/-- Settles O39: the opcode selects the row; LDR's one read is at the base register, which DR has not yet replaced. -/
theorem loadBaseOffsetResult : Obligations.LoadBaseOffsetResult := by
  unfold Obligations.LoadBaseOffsetResult
  exact ⟨BaseOffset6Row.ldr.rowDecodes rfl, fun dr base off _ => exec_loadResult (i := .ldr dr base off) rfl⟩

/-- Settles O40: the opcode selects the row; LEA writes R10's sum to DR as an operate instruction writes its result. -/
theorem leaResult : Obligations.LeaResult := by
  unfold Obligations.LeaResult
  refine ⟨RegOffset9Row.lea.rowDecodes rfl, fun dr off s => ⟨_, rfl, ?result⟩⟩
  case result =>
    rw [← pcRelative_eq_target s.pc off (by decide)]
    exact s.setReg_operateResult dr _

/-- Settles O41: the opcode selects the row; ST is a store that reads nothing. -/
theorem storeResult : Obligations.StoreResult := by
  unfold Obligations.StoreResult
  exact ⟨RegOffset9Row.st.rowDecodes rfl, fun sr off _ => exec_storeResult (i := .st sr off) rfl⟩

/-- Settles O42: the opcode selects the row; STI is a store at the pointer that its one read returns. -/
theorem storeIndirectResult : Obligations.StoreIndirectResult := by
  unfold Obligations.StoreIndirectResult
  exact ⟨RegOffset9Row.sti.rowDecodes rfl, fun sr off _ => exec_storeResult (i := .sti sr off) rfl⟩

/-- Settles O43: the opcode selects the row; STR is a store that reads nothing. -/
theorem storeBaseOffsetResult : Obligations.StoreBaseOffsetResult := by
  unfold Obligations.StoreBaseOffsetResult
  exact ⟨BaseOffset6Row.str.rowDecodes rfl, fun sr base off _ => exec_storeResult (i := .str sr base off) rfl⟩

end Sys2Proof.Machine
end

section
/-! The words of the TRAP rows (R54, R55, R88): the vector alone selects the service. -/

namespace Sys2Proof

open Sys2Proof.Machine

/-- A service's row, its mask the opcode and the vector, decodes to the service (R55, R88). -/
theorem rowDecodes_of_vector {bits : Word} {v : Byte} (hbits : encodeTrap v = bits) :
    Claims.rowDecodes bits 0xF0FF#16 (fun _ => decodeTrap v) := by
  intro w hw
  have hword : IsWordOf w (decodeTrap v) := isWordOf_of_encode_eq (by
    rw [encode_decodeTrap, usedBits_decodeTrap, hbits, ← hw]; rfl)
  exact hword.decode_eq_decodeTrap

/-- Below 0x20 and above 0x25 no vector names a service (R88, D3). -/
theorem isServiceVector_eq_false_of_outside {v : Byte} (hv : v.toNat < 0x20 ∨ 0x25 < v.toNat) :
    isServiceVector v = false := by
  revert v; decide

end Sys2Proof
end

section
/-! The trap dispatcher and its services (44_trap.md): the link of R7, then what the service does. Each service's law is
stated of any state, so it serves the TRAP, after its link, and the step that goes on with the service. -/

namespace Sys2Proof.Machine

open Sys2Proof.Claims

/-! ### The link (R88, D15) -/

/-- What keeps the registers of the linked state, but for some that R7 is not among, makes the frame of a TRAP. -/
theorem trapFrame_of_trapLink {s t : State} {but : List Reg} (hr7 : .r7 ∉ but) (hregs : keepsRegs s.trapLink t but)
    (hpc : t.pc = s.pc) : trapFrame s t but := by
  refine ⟨(hregs .r7 hr7).trans rfl, fun q hq => ?_, hpc⟩
  obtain ⟨hne, hbut⟩ := List.ne_and_not_mem_of_not_mem_cons hq
  rw [hregs q hbut, State.trapLink_reg, if_neg hne]

/-- What keeps all registers of the linked state makes the frame of a TRAP. -/
theorem trapFrame_of_regs_eq {s t : State} (hregs : t.regs = s.trapLink.regs) (hpc : t.pc = s.pc) :
    trapFrame s t [] :=
  trapFrame_of_trapLink List.not_mem_nil (fun q _ => congrArg (·.get q) hregs) hpc

/-- A read does not see the link, and the link does not see a read (R29, R88). -/
@[simp] theorem State.trapLink_afterRead (s : State) (a : Word) :
    s.trapLink.afterRead a = (s.afterRead a).trapLink := by
  unfold State.afterRead; split <;> rfl

@[simp] theorem State.trapLink_readValue (s : State) (a : Word) : s.trapLink.readValue a = s.readValue a := by
  rw [State.readValue, State.trapLink_afterRead]; rfl

/-- Settles O44: the vector alone selects the decoded row; the dispatcher's arms are the services' own bodies; any other
vector raises InvalidTrap in the linked state. -/
theorem trapDispatch : Obligations.TrapDispatch := by
  unfold Obligations.TrapDispatch
  refine ⟨fun w hw => ?row, fun s => ⟨rfl, rfl, rfl, rfl, rfl, rfl⟩, fun v s hv => ?invalid⟩
  case row =>
    have hop : opcodeOf w = opTrap := opcodeOf_eq_of_and_eq hw rfl
    simp only [decode_of_opTrap hop, posVector, fieldNat_eq_toNat_bitsAt, valField_eq_bitsAt]
    generalize bitsAt w 0 8 = v
    revert v
    decide
  case invalid =>
    have wf : (Instr.trap v).WellFormed := by
      simp [Instr.WellFormed, Instr.wellFormed, isServiceVector_eq_false_of_outside hv]
    exact ⟨_, exec_trap_of_wellFormed wf s, rfl, trapFrame_of_regs_eq rfl rfl, rfl, fun _ => rfl, ⟨rfl, rfl, rfl⟩, rfl⟩

/-- Settles O8: a service that does not wait goes on, and no service changes PC or the run status. -/
theorem serviceInProgressGoesOn : Obligations.ServiceInProgressGoesOn := by
  unfold Obligations.ServiceInProgressGoesOn
  intro s hrun hservice hwaits
  exact ⟨_, step_service hrun hservice hwaits, rfl, State.resume_pc hservice, (State.resume_status hservice).trans hrun⟩

/-! ### GETC and IN (R89, R92) -/

theorem State.getcService_of_cons {s : State} {k : Byte} {rest : List Byte} (hk : s.kbdIn = k :: rest) :
    s.getcService = (s.keyTaken rest).acceptKey k := by
  rw [State.getcService, hk]

theorem State.getcService_of_nil {s : State} (hk : s.kbdIn = []) : s.getcService = s.serviceGoesOn .getc := by
  rw [State.getcService, hk]

theorem State.inService_of_cons {s : State} {k : Byte} {rest : List Byte} (hk : s.kbdIn = k :: rest) :
    s.inService = ((s.keyTaken rest).writeChar k).acceptKey k := by
  rw [State.inService, hk]

theorem State.inService_of_nil {s : State} (hk : s.kbdIn = []) : s.inService = s.serviceGoesOn .inChar := by
  rw [State.inService, hk]

/-- With no byte there, recording a wait changes nothing else (R68). -/
theorem State.serviceGoesOn_keyAwaited {s : State} (hk : s.kbdIn = []) (v : Service) :
    keyAwaited s (s.serviceGoesOn v) v :=
  ⟨rfl, hk, fun _ => rfl, rfl, rfl, rfl⟩

/-- Settles O45: in the linked state GETC accepts the byte that is there, or records the wait. -/
theorem getcResult : Obligations.GetcResult := by
  unfold Obligations.GetcResult
  refine ⟨rowDecodes_of_vector (v := vecGetc) rfl, fun s k rest hk => ?byte, fun s hk => ?wait⟩
  case byte =>
    have hexec : exec .trapGetc s = .next ((s.trapLink.keyTaken rest).acceptKey k) :=
      congrArg Host.Outcome.next (State.getcService_of_cons hk)
    exact ⟨_, hexec, trapFrame_of_trapLink (by decide) ((s.trapLink.keyTaken rest).acceptKey_keepsRegs k) rfl,
      (s.trapLink.keyTaken rest).acceptKey_keyAccepted k, rfl⟩
  case wait =>
    have hexec : exec .trapGetc s = .next (s.trapLink.serviceGoesOn .getc) :=
      congrArg Host.Outcome.next (State.getcService_of_nil hk)
    exact ⟨_, hexec, trapFrame_of_regs_eq rfl rfl, s.trapLink.serviceGoesOn_keyAwaited hk .getc, rfl⟩

/-- Settles O48: as GETC in the linked state, the prompt written first and the byte echoed. -/
theorem inResult : Obligations.InResult := by
  unfold Obligations.InResult
  refine ⟨rowDecodes_of_vector (v := vecIn) rfl, fun s k rest hk => ?byte, fun s hk => ?wait⟩
  case byte =>
    have hexec : exec .trapIn s =
        .next ((((s.trapLink.writeChars Config.inPrompt).keyTaken rest).writeChar k).acceptKey k) :=
      congrArg Host.Outcome.next (State.inService_of_cons hk)
    exact ⟨_, hexec, trapFrame_of_trapLink (by decide) (State.acceptKey_keepsRegs _ k) rfl,
      State.acceptKey_keyAccepted _ k, rfl⟩
  case wait =>
    have hexec : exec .trapIn s = .next ((s.trapLink.writeChars Config.inPrompt).serviceGoesOn .inChar) :=
      congrArg Host.Outcome.next (State.inService_of_nil hk)
    exact ⟨_, hexec, trapFrame_of_regs_eq rfl rfl, State.serviceGoesOn_keyAwaited hk .inChar, rfl⟩

/-! ### OUT and HALT (R90, R94) -/

/-- The spec's byte of a word is the bits of it (R9, R36). -/
theorem byteField_eq_extractLsb' (w : Word) (lo : Nat) : byteField w lo = w.extractLsb' lo 8 := by
  rw [byteField, BitVec.extractLsb', Nat.shiftRight_eq_div_pow]

theorem lowByte_eq_byteField (w : Word) : lowByte w = byteField w 0 := (byteField_eq_extractLsb' w 0).symm

theorem highByte_eq_byteField (w : Word) : highByte w = byteField w 8 := (byteField_eq_extractLsb' w 8).symm

/-- Settles O46: OUT writes one byte in the linked state; R0 is not the register that the link writes. -/
theorem outResult : Obligations.OutResult := by
  unfold Obligations.OutResult
  refine ⟨rowDecodes_of_vector (v := vecOut) rfl, fun s => ⟨_, rfl, ?output, trapFrame_of_regs_eq rfl rfl, rfl,
    fun _ => rfl, rfl, rfl, rfl, rfl⟩⟩
  case output => rw [← lowByte_eq_byteField]; rfl

/-- Settles O50: HALT writes the notice in the linked state and ends the run, and an ended run has no step. -/
theorem haltEndsTheRun : Obligations.HaltEndsTheRun := by
  unfold Obligations.HaltEndsTheRun
  exact ⟨rowDecodes_of_vector (v := vecHalt) rfl, fun s => ⟨_, rfl, rfl, rfl,
    trapFrame_of_regs_eq rfl rfl, rfl, fun _ => rfl, rfl, rfl, rfl,
    step_of_halted rfl⟩⟩

end Sys2Proof.Machine
end

section
/-! PUTS and PUTSP (44_trap.md): both take a string word by word, so the laws of one word and of a whole string are
those of any service that does. -/

namespace Sys2Proof.Machine

open Sys2Proof.Claims

/-! ### One word (R91, R93) -/

/-- What one word of PUTS writes (R91). -/
def putsBytes (w : Word) : List Byte := if w = 0#16 then [] else [byteField w 0]

/-- What one word of PUTSP writes (R93, D20). -/
def putspBytes (w : Word) : List Byte :=
  if w = 0#16 then [] else if byteField w 8 = 0#8 then [byteField w 0] else [byteField w 0, byteField w 8]

/-- A service that takes a string word by word (D29): its work at one address reads the word there, writes some bytes of
it and records where the service stands next, which the step after it goes by. -/
structure StringService where
  /-- The work at an address. -/
  word : State → Word → State
  /-- What is written of a word. -/
  bytes : Word → List Byte
  /-- What the service records after the word `w` at `a`. -/
  next (w a : Word) : Service
  /-- What records that the word at an address comes next. -/
  place : Word → Service
  word_eq : ∀ s a,
    word s a = ((s.afterRead a).writeChars (bytes (s.readValue a))).serviceGoesOn (next (s.readValue a) a)
  step_eq : ∀ {s : State} {a : Word}, s.status = .running → s.service = place a → step s = .next (word s a)

/-- PUTS ends at a zero word (R91). -/
def putsString : StringService where
  word := State.putsService
  bytes := putsBytes
  next w a := if w = 0#16 then .idle else .puts (BitVec.ofNat 16 (a.toNat + 1))
  place := .puts
  word_eq s a := by
    by_cases hzero : s.readValue a = 0#16
    · simp [State.putsService_zero hzero, putsBytes, hzero, State.writeChars, State.serviceDone, State.serviceGoesOn]
    · rw [State.putsService_char hzero, putsBytes, if_neg hzero, if_neg hzero, lowByte_eq_byteField, word_add_one]
      rfl
  step_eq {s a} hrun hputs := by
    rw [step_service hrun (by simp [hputs]) (by simp [State.waits, hputs]), State.resume, hputs]

/-- PUTSP ends at a zero high byte, and so at a zero word (R93, D20). -/
def putspString : StringService where
  word := State.putspService
  bytes := putspBytes
  next w a := if byteField w 8 = 0#8 then .idle else .putsp (BitVec.ofNat 16 (a.toNat + 1))
  place := .putsp
  word_eq s a := by
    by_cases hzero : s.readValue a = 0#16
    · simp [State.putspService_zero hzero, putspBytes, byteField, hzero, State.writeChars, State.serviceDone,
        State.serviceGoesOn]
    by_cases hhigh : byteField (s.readValue a) 8 = 0#8
    · rw [State.putspService_last hzero ((highByte_eq_byteField _).trans hhigh), putspBytes, if_neg hzero, if_pos hhigh,
        if_pos hhigh, lowByte_eq_byteField]
      rfl
    · rw [State.putspService_pair hzero (highByte_eq_byteField _ ▸ hhigh), putspBytes, if_neg hzero, if_neg hhigh,
        if_neg hhigh, lowByte_eq_byteField, highByte_eq_byteField, word_add_one]
      simp [State.writeChar, State.writeChars]
  step_eq {s a} hrun hputsp := by
    rw [step_service hrun (by simp [hputsp]) (by simp [State.waits, hputsp]), State.resume, hputsp]

namespace StringService

/-- The service took the word at `a`: `putsWord` and `putspWord` for any such service. -/
def tookWord (S : StringService) (s t : State) (a : Word) : Prop :=
  t.conOut = s.conOut ++ S.bytes (s.readValue a) ∧ t.service = S.next (s.readValue a) a ∧
    (∀ b, t.mem.read b = (s.afterRead a).mem.read b) ∧ keepsMemBut s t [a] ∧ t.kbdIn = (s.afterRead a).kbdIn ∧
    t.polls = (s.afterRead a).polls ∧ t.cond = s.cond ∧ t.pc = s.pc ∧ t.status = s.status

theorem word_tookWord (S : StringService) (s : State) (a : Word) : S.tookWord s (S.word s a) a := by
  rw [S.word_eq]
  exact ⟨congrArg (· ++ _) (s.afterRead_conOut a), rfl, fun _ => rfl, s.afterReads_keepsMemBut [a], rfl, rfl,
    s.afterRead_cond a, s.afterRead_pc a, s.afterRead_status a⟩

theorem word_regs (S : StringService) (s : State) (a : Word) : (S.word s a).regs = s.regs := by
  rw [S.word_eq]
  exact s.afterRead_regs a

theorem word_pc (S : StringService) (s : State) (a : Word) : (S.word s a).pc = s.pc := by
  rw [S.word_eq]
  exact s.afterRead_pc a

/-- A word taken in the linked state was taken (R88). -/
theorem tookWord_of_trapLink {S : StringService} {s t : State} {a : Word} (h : S.tookWord s.trapLink t a) :
    S.tookWord s t a := by
  simpa [tookWord, keepsMemBut] using h

/-- The TRAP takes the word at R0 in the linked state, and a step inside the service the word at its place. -/
theorem takesOneWordAtATime (S : StringService) {i : Instr}
    (hexec : ∀ s, exec i s = .next (S.word s.trapLink (s.reg .r0))) :
    (∀ s, ∃ t, exec i s = .next t ∧ S.tookWord s t (s.reg .r0) ∧ trapFrame s t []) ∧
    ∀ (s : State) (a : Word), s.status = .running → s.service = S.place a →
      ∃ t, step s = .next t ∧ S.tookWord s t a ∧ keepsRegs s t [] := by
  refine ⟨fun s => ⟨_, hexec s, ?took, ?frame⟩,
    fun s a hrun hplace => ⟨_, S.step_eq hrun hplace, S.word_tookWord s a, ?regs⟩⟩
  case took => exact tookWord_of_trapLink (S.word_tookWord s.trapLink (s.reg .r0))
  case frame => exact trapFrame_of_regs_eq (S.word_regs s.trapLink _) (S.word_pc s.trapLink _)
  case regs => exact fun q _ => congrArg (·.get q) (S.word_regs s a)

end StringService

/-- Settles O47: PUTS is a service that takes a string word by word. -/
theorem putsTakesOneWordAtATime : Obligations.PutsTakesOneWordAtATime := by
  unfold Obligations.PutsTakesOneWordAtATime
  exact ⟨rowDecodes_of_vector (v := vecPuts) rfl, putsString.takesOneWordAtATime (i := .trapPuts) fun _ => rfl⟩

/-- Settles O49: PUTSP is a service that takes a string word by word. -/
theorem putspTakesOneWordAtATime : Obligations.PutspTakesOneWordAtATime := by
  unfold Obligations.PutspTakesOneWordAtATime
  exact ⟨rowDecodes_of_vector (v := vecPutsp) rfl, putspString.takesOneWordAtATime (i := .trapPutsp) fun _ => rfl⟩

/-! ### The whole string (R91, R93) -/

/-- The words stand in consecutive cells from `a` up, none of them the status cell. -/
def Memory.holds (m : Memory) (a : Word) : List Word → Prop
  | [] => True
  | w :: ws => a ≠ kbsrAddr ∧ m.read a = w ∧ m.holds (BitVec.ofNat 16 (a.toNat + 1)) ws

theorem ofNat_toNat_add_zero (a : Word) : BitVec.ofNat 16 (a.toNat + 0) = a := by simp

/-- An address counted from the next one on (R35). -/
theorem ofNat_toNat_next_add (a : Word) (n : Nat) :
    BitVec.ofNat 16 ((BitVec.ofNat 16 (a.toNat + 1)).toNat + n) = BitVec.ofNat 16 (a.toNat + (n + 1)) := by
  apply BitVec.eq_of_toNat_eq
  simp only [BitVec.toNat_ofNat]
  omega

/-- A string and its last word, given word by word by their numbers. -/
theorem Memory.holds_of_read {m : Memory} {a : Word} {ws : List Word} {last : Word}
    (hread : ∀ (n : Nat) (h : n < ws.length), m.read (BitVec.ofNat 16 (a.toNat + n)) = ws[n])
    (hlast : m.read (BitVec.ofNat 16 (a.toNat + ws.length)) = last)
    (hkbsr : ∀ n, n ≤ ws.length → BitVec.ofNat 16 (a.toNat + n) ≠ kbsrAddr) : m.holds a (ws ++ [last]) := by
  induction ws generalizing a with
  | nil => exact ⟨ofNat_toNat_add_zero a ▸ hkbsr 0 (Nat.zero_le _), ofNat_toNat_add_zero a ▸ hlast, trivial⟩
  | cons w ws ih =>
    have hhere : a ≠ kbsrAddr := ofNat_toNat_add_zero a ▸ hkbsr 0 (Nat.zero_le _)
    have hw : m.read a = w := ofNat_toNat_add_zero a ▸ hread 0 (Nat.zero_lt_succ _)
    have hrest : m.holds (BitVec.ofNat 16 (a.toNat + 1)) (ws ++ [last]) := by
      apply ih <;> simp only [ofNat_toNat_next_add]
      case hread => exact fun n hn => hread (n + 1) (Nat.succ_lt_succ hn)
      case hlast => exact hlast
      case hkbsr => exact fun n hn => hkbsr (n + 1) (Nat.succ_le_succ hn)
    exact ⟨hhere, hw, hrest⟩

namespace StringService

/-- Off the status cell a word is taken with no poll (R29). -/
theorem word_of_read (S : StringService) {s : State} {a w : Word} (hkbsr : a ≠ kbsrAddr) (hw : s.mem.read a = w) :
    S.word s a = (s.writeChars (S.bytes w)).serviceGoesOn (S.next w a) := by
  rw [S.word_eq, State.readValue_of_ne hkbsr, State.afterRead_of_ne hkbsr, hw]

/-- The first word and as many steps as go on from a word write the whole string and end the service. -/
theorem run_word (S : StringService) {s : State} {a : Word} {ws : List Word} {last : Word} (hrun : s.status = .running)
    (hws : ∀ w ∈ ws, ∀ b : Word, S.next w b = S.place (BitVec.ofNat 16 (b.toNat + 1)))
    (hlast : ∀ b, S.next last b = .idle) (hmem : s.mem.holds a (ws ++ [last])) :
    core.run ws.length (S.word s a) = .next (s.writeChars ((ws ++ [last]).flatMap S.bytes)).serviceDone := by
  induction ws generalizing s a with
  | nil =>
    obtain ⟨hkbsr, hread, _⟩ := hmem
    rw [S.word_of_read hkbsr hread, hlast]
    simp [Host.Core.run, State.serviceGoesOn, State.serviceDone]
  | cons w ws ih =>
    obtain ⟨hkbsr, hread, hrest⟩ := hmem
    rw [S.word_of_read hkbsr hread, hws w List.mem_cons_self]
    set u := (s.writeChars (S.bytes w)).serviceGoesOn (S.place (BitVec.ofNat 16 (a.toNat + 1))) with hu
    have hstep : core.step u = .next (S.word u (BitVec.ofNat 16 (a.toNat + 1))) := S.step_eq hrun rfl
    have hih := ih (s := u) hrun (fun v hv => hws v (List.mem_cons_of_mem w hv)) hrest
    rw [List.length_cons, run_succ_of_step core ws.length hstep, hih, hu]
    simp [State.writeChars, State.serviceGoesOn, State.serviceDone]

/-- A TRAP of the service whose string stands at R0 writes it and keeps everything else but the link (R95). -/
theorem exec_string (S : StringService) {i : Instr} {s : State} {ws : List Word} {last : Word}
    (hexec : exec i s = .next (S.word s.trapLink (s.reg .r0))) (hrun : s.status = .running)
    (hws : ∀ w ∈ ws, ∀ b : Word, S.next w b = S.place (BitVec.ofNat 16 (b.toNat + 1)))
    (hlast : ∀ b, S.next last b = .idle) (hmem : s.mem.holds (s.reg .r0) (ws ++ [last])) :
    ∃ t0 t, exec i s = .next t0 ∧ core.run ws.length t0 = .next t ∧
      t.conOut = s.conOut ++ (ws ++ [last]).flatMap S.bytes ∧ t.service = .idle ∧ trapFrame s t [] ∧
      t.cond = s.cond ∧ keepsMem s t ∧ t.kbdIn = s.kbdIn ∧ t.polls = s.polls ∧ t.status = .running :=
  ⟨_, _, hexec, S.run_word hrun hws hlast hmem, rfl, rfl, trapFrame_of_regs_eq rfl rfl, rfl, fun _ => rfl,
    rfl, rfl, hrun⟩

end StringService

/-- The bytes of a string: the low one of each word, and none of the zero word. -/
theorem flatMap_putsBytes {ws : List Word} (hws : ∀ w ∈ ws, w ≠ 0#16) :
    (ws ++ [0#16]).flatMap putsBytes = ws.map (byteField · 0) := by
  induction ws with
  | nil => rfl
  | cons w ws ih =>
    obtain ⟨hw, hrest⟩ := List.forall_mem_cons.1 hws
    simp [putsBytes, hw, ih hrest]

/-- Settles O51: each nonzero word goes on to the next address, and the zero word ends PUTS. -/
theorem putsWritesTheWholeString : Obligations.PutsWritesTheWholeString := by
  unfold Obligations.PutsWritesTheWholeString
  intro s ws hrun hws hread hlast hkbsr
  rw [← flatMap_putsBytes hws]
  exact putsString.exec_string (i := .trapPuts) rfl hrun (fun w hw _ => if_neg (hws w hw)) (fun _ => rfl)
    (Memory.holds_of_read hread hlast hkbsr)

/-- The bytes of a packed string: both of each full word, then the last word's. -/
theorem flatMap_putspBytes {ws : List Word} (hws : ∀ w ∈ ws, byteField w 8 ≠ 0#8) {last : Word}
    (hlast : byteField last 8 = 0#8) :
    (ws ++ [last]).flatMap putspBytes = ws.flatMap (fun w => [byteField w 0, byteField w 8]) ++
      (if last = 0#16 then [] else [byteField last 0]) := by
  have hfull : ∀ w ∈ ws, putspBytes w = [byteField w 0, byteField w 8] := by
    intro w hw
    have hne : w ≠ 0#16 := fun hzero => hws w hw (hzero ▸ rfl)
    rw [putspBytes, if_neg hne, if_neg (hws w hw)]
  rw [List.flatMap_append, List.flatMap_congr hfull, List.flatMap_singleton, putspBytes, if_pos hlast]

/-- Settles O52: each word with a high byte goes on to the next address, and one without ends PUTSP. -/
theorem putspWritesThePackedString : Obligations.PutspWritesThePackedString := by
  unfold Obligations.PutspWritesThePackedString
  intro s ws last hrun hws hhigh hread hlast hkbsr
  rw [List.append_assoc, ← flatMap_putspBytes hws hhigh]
  exact putspString.exec_string (i := .trapPutsp) rfl hrun (fun w hw _ => if_neg (hws w hw)) (fun _ => if_pos hhigh)
    (Memory.holds_of_read hread hlast hkbsr)

end Sys2Proof.Machine
end

section
/-! The reserved opcodes (45_reserved.md): both bodies raise a fatal error (R97, R98), and one law says what follows a
body that does. -/

namespace Sys2Proof

open Sys2Proof.Machine

/-- A word with RTI's opcode is RTI, whatever its bits [11:0] (R54). -/
theorem decode_of_opRti {w : Word} (hop : opcodeOf w = opRti) : decode w = .rti := by
  simp only [decode, hop]
  rfl

/-- A word with RES's opcode is RES, whatever its bits [11:0] (R54). -/
theorem decode_of_opRes {w : Word} (hop : opcodeOf w = opRes) : decode w = .res := by
  simp only [decode, hop]
  rfl

end Sys2Proof

namespace Sys2Proof.Machine

/-- No step follows a body that raises a fatal error (R63, R102). -/
theorem step_of_exec_eq_raise {i : Instr} {s t : State} {what : Fatal} (hraise : exec i s = .next (s.raise what))
    (h : exec i s = .next t) : step t = .fault (.fatal what) := by
  cases hraise.symm.trans h
  exact step_of_faulted (s.raise_status what)

/-- Settles O54: the opcode selects the row; the body raises InvalidOpcode at the incremented PC, which ends the run. -/
theorem rtiIsFatal : Obligations.RtiIsFatal := by
  unfold Obligations.RtiIsFatal
  refine ⟨fun w hw => ?row, fun s => ⟨rfl, fun t h => ?noStep⟩⟩
  case row => exact decode_of_opRti (opcodeOf_eq_of_and_eq hw rfl)
  case noStep => exact step_of_exec_eq_raise (i := .rti) rfl h

/-- Settles O55: the opcode selects the row; the body raises InvalidOpcode at the incremented PC, which ends the run. -/
theorem resIsFatal : Obligations.ResIsFatal := by
  unfold Obligations.ResIsFatal
  refine ⟨fun w hw => ?row, fun s => ⟨rfl, fun t h => ?noStep⟩⟩
  case row => exact decode_of_opRes (opcodeOf_eq_of_and_eq hw rfl)
  case noStep => exact step_of_exec_eq_raise (i := .res) rfl h

end Sys2Proof.Machine
end

section
/-! Fatal errors (R100, R101): which bodies raise one, and all that such a body changes. -/

namespace Sys2Proof.Machine

open Sys2Proof.Claims

/-- A body that takes a running machine to a fatal error raises InvalidOpcode at the incremented PC and does nothing else,
or raises InvalidTrap there once the link is made (R88, R97, R98). -/
theorem exec_faulted_cases {i : Instr} (wf : i.WellFormed) {s t : State} {what : Fatal} (hrun : s.status = .running)
    (h : exec i s = .next t) (hfatal : t.status = .faulted what) :
    (∃ op, what = .invalidOpcode op s.pc ∧ t = s.raise what) ∨
    ∃ v, what = .invalidTrap v s.pc ∧ t = s.trapLink.raise what := by
  rcases exec_status_cases wf h with hkept | ⟨_, rfl⟩ | ⟨_, rfl⟩ | ⟨_, rfl⟩ | ⟨v, _, _, rfl⟩
  case inl => simp [hfatal, hrun] at hkept
  case inr.inl => simp at hfatal
  all_goals obtain rfl := Status.faulted.inj hfatal
  · exact .inl ⟨opRti, rfl, rfl⟩
  · exact .inl ⟨opRes, rfl, rfl⟩
  · exact .inr ⟨v, rfl, rfl⟩

/-- Settles O19: a fatal error is a raise, in the state itself or in the linked one, whose frame is that of a TRAP. -/
theorem fatalErrorsArePrecise : Obligations.FatalErrorsArePrecise := by
  unfold Obligations.FatalErrorsArePrecise
  intro i wf s t what hrun h hfatal
  rcases exec_faulted_cases wf hrun h hfatal with ⟨op, hwhat, rfl⟩ | ⟨v, hwhat, rfl⟩
  · exact ⟨rfl, fun q _ => s.raise_reg what q, .inl ⟨op, hwhat, s.raise_reg what .r7⟩⟩
  · obtain ⟨hlink, hkept, _⟩ : trapFrame s (s.trapLink.raise what) [] := trapFrame_of_regs_eq rfl rfl
    exact ⟨rfl, hkept, .inr ⟨v, hwhat, hlink⟩⟩

end Sys2Proof.Machine
end

section
/-! The load of an image (R109, R110): one law says what every cell reads as afterwards. -/

namespace Sys2Proof.Machine

/-- After a copy of at most 65536 words to `origin`, the cell `a` holds the image's word at its distance from `origin`,
counted modulo 2^16, and its old word where the image has none there (R35, R110). -/
theorem Memory.read_copyIn (m : Memory) (origin a : Word) (ws : List Word) (hlen : ws.length ≤ 65536) :
    (m.copyIn origin ws).read a = ws[(a - origin).toNat]?.getD (m.read a) := by
  induction ws generalizing m origin with
  | nil => rfl
  | cons w rest ih =>
    have hrest : rest.length < 65536 := hlen
    rw [Memory.copyIn, ih _ _ hrest.le, Memory.read_write]
    by_cases hfirst : a = origin
    · subst hfirst
      have hpast : rest.length ≤ (a - (a + 1#16)).toNat := by bv_omega
      rw [List.getElem?_eq_none hpast, if_pos rfl, BitVec.sub_self]
      rfl
    · have hnext : (a - origin).toNat = (a - (origin + 1#16)).toNat + 1 := by bv_omega
      rw [hnext, List.getElem?_cons_succ, if_neg hfirst]

/-- Settles O27: a cell of the image lies at its index from `origin`, and any other cell lies beyond the image's end. -/
theorem imageLoadWritesOnlyItsCells : Obligations.ImageLoadWritesOnlyItsCells := by
  unfold Obligations.ImageLoadWritesOnlyItsCells
  refine ⟨fun s origin ws hfits => ⟨_, if_pos hfits, fun n hn => ?written, fun a ha => ?kept, rfl⟩,
    fun s origin ws hlong => if_neg hlong.not_ge⟩
  all_goals rw [Memory.read_copyIn _ _ _ _ (by omega)]
  case written =>
    have hindex : (BitVec.ofNat 16 (origin.toNat + n) - origin).toNat = n := by bv_omega
    rw [hindex, List.getElem?_eq_getElem hn, Option.getD_some]
  case kept =>
    have hbeyond : ws.length ≤ (a - origin).toNat := by bv_omega
    rw [List.getElem?_eq_none hbeyond, Option.getD_none]

end Sys2Proof.Machine
end

section
/-! The constructed state (R113): its values, whatever registers and console streams the host brings. -/

namespace Sys2Proof.Machine

/-- The constructed memory is canonical, and the constructed machine is running. -/
theorem State.construct_inv (g : Regs) (k o : List Byte) : (State.construct g k o).Inv :=
  ⟨State.construct_wf g k o, State.runGood_of_running (State.construct_status g k o)⟩

/-- Settles O18: the reset state is a constructed one. -/
theorem invariantHoldsAtConstruction : Obligations.InvariantHoldsAtConstruction := by
  unfold Obligations.InvariantHoldsAtConstruction
  exact ⟨State.construct_inv, State.construct_inv _ _ _⟩

/-- Settles O22: the values field by field, by the laws of construction; the reset state is constructed from zeros. -/
theorem constructionHoldsTheResetValues : Obligations.ConstructionHoldsTheResetValues := by
  unfold Obligations.ConstructionHoldsTheResetValues
  exact ⟨fun g k o => ⟨State.construct_pc g k o, State.construct_cond g k o, Memory.read_nil,
    State.construct_status g k o, fun _ => rfl, State.construct_kbdIn g k o, State.construct_conOut g k o⟩,
    _, _, _, rfl⟩

end Sys2Proof.Machine
end

section
/-! The input that a step does not read (R118): such a step commutes with putting any other `kbd_in` in the place of the
one that stands there. With the same `kbd_in` put there, this says that the step leaves the input as it was. -/

namespace Sys2Proof.Machine

open Sys2Proof.Claims

/-- The state with another `kbd_in`. -/
def State.withInput (s : State) (bytes : List Byte) : State := { s with kbdIn := bytes }

@[simp] theorem State.withInput_kbdIn (s : State) (bytes : List Byte) : (s.withInput bytes).kbdIn = bytes := rfl

/-! ### Reads off the status cell (R29, R39) -/

theorem State.withInput_afterRead (s : State) (bytes : List Byte) {a : Word} (ha : a ≠ kbsrAddr) :
    (s.withInput bytes).afterRead a = (s.afterRead a).withInput bytes := by
  rw [State.afterRead_of_ne ha, State.afterRead_of_ne ha]

theorem State.withInput_readValue (s : State) (bytes : List Byte) {a : Word} (ha : a ≠ kbsrAddr) :
    (s.withInput bytes).readValue a = s.readValue a := by
  rw [State.readValue, s.withInput_afterRead bytes ha]
  rfl

theorem State.withInput_loadInto (s : State) (bytes : List Byte) (dr : Reg) {a : Word} (ha : a ≠ kbsrAddr) :
    (s.withInput bytes).loadInto dr a = (s.loadInto dr a).withInput bytes := by
  rw [State.loadInto, s.withInput_readValue bytes ha, s.withInput_afterRead bytes ha]
  rfl

/-- One word of PUTS or PUTSP. -/
theorem StringService.word_withInput (S : StringService) (s : State) (bytes : List Byte) {a : Word}
    (ha : a ≠ kbsrAddr) : S.word (s.withInput bytes) a = (S.word s a).withInput bytes := by
  rw [S.word_eq, S.word_eq, s.withInput_readValue bytes ha, s.withInput_afterRead bytes ha]
  rfl

/-! ### A body and a step -/

/-- The body of an instruction that is no GETC and no IN and makes no read of the status cell (R118). -/
theorem exec_withInput {i : Instr} (wf : i.WellFormed) {s t : State} (hgetc : i ≠ .trapGetc) (hin : i ≠ .trapIn)
    (hreads : kbsrAddr ∉ readsOf i s) (h : exec i s = .next t) (bytes : List Byte) :
    exec i (s.withInput bytes) = .next (t.withInput bytes) := by
  have off : ∀ a ∈ readsOf i s, a ≠ kbsrAddr := fun a ha e => hreads (e ▸ ha)
  cases i with
  | trapGetc => exact absurd rfl hgetc
  | trapIn => exact absurd rfl hin
  | ld | ldr =>
    cases h
    exact congrArg Host.Outcome.next (s.withInput_loadInto bytes _ (off _ List.mem_cons_self))
  | ldi dr o =>
    cases h
    have hpointer : pcRelative s.pc o ≠ kbsrAddr := off _ List.mem_cons_self
    have hoperand : s.readValue (pcRelative s.pc o) ≠ kbsrAddr := off _ (List.mem_cons_of_mem _ List.mem_cons_self)
    change Host.Outcome.next (((s.withInput bytes).afterRead (pcRelative s.pc o)).loadInto dr
      ((s.withInput bytes).readValue (pcRelative s.pc o))) = _
    rw [s.withInput_readValue bytes hpointer, s.withInput_afterRead bytes hpointer,
      State.withInput_loadInto _ bytes dr hoperand]
  | sti sr o =>
    cases h
    have hpointer : pcRelative s.pc o ≠ kbsrAddr := off _ List.mem_cons_self
    change Host.Outcome.next (((s.withInput bytes).afterRead (pcRelative s.pc o)).memWrite
      ((s.withInput bytes).readValue (pcRelative s.pc o)) (s.reg sr)) = _
    rw [s.withInput_readValue bytes hpointer, s.withInput_afterRead bytes hpointer]
    rfl
  | trap v =>
    rw [exec_trap_of_wellFormed wf] at h ⊢
    cases h; rfl
  | trapPuts =>
    cases h
    exact congrArg Host.Outcome.next (putsString.word_withInput s.trapLink bytes (off _ List.mem_cons_self))
  | trapPutsp =>
    cases h
    exact congrArg Host.Outcome.next (putspString.word_withInput s.trapLink bytes (off _ List.mem_cons_self))
  | _ => cases h; rfl

/-- A step that takes one more word of PUTS or PUTSP, off the status cell. -/
theorem StringService.step_withInput (S : StringService) {s : State} {a : Word} (hrun : s.status = .running)
    (hplace : s.service = S.place a) (ha : a ≠ kbsrAddr) :
    ∃ t, step s = .next t ∧ ∀ bytes, step (s.withInput bytes) = .next (t.withInput bytes) := by
  refine ⟨_, S.step_eq hrun hplace, fun bytes => ?_⟩
  rw [← S.word_withInput s bytes ha]
  exact S.step_eq hrun hplace

/-- A step that reads no input: the end of the run at the top, a body, or a word of a string (R118). -/
theorem step_withInput {s : State} (hrun : s.status = .running) (hunread : readsNoInput s) :
    ∃ t, step s = .next t ∧ ∀ bytes, step (s.withInput bytes) = .next (t.withInput bytes) := by
  cases hservice : s.service with
  | getc | inChar => simp [readsNoInput, hservice] at hunread
  | puts a => exact putsString.step_withInput hrun hservice (by simpa only [readsNoInput, hservice] using hunread)
  | putsp a => exact putspString.step_withInput hrun hservice (by simpa only [readsNoInput, hservice] using hunread)
  | idle =>
    simp only [readsNoInput, hservice] at hunread
    obtain ⟨hkbsr, hunread⟩ := hunread
    by_cases htop : s.pc = lastAddr
    · exact ⟨_, step_top hrun hservice htop, fun bytes => step_top (s := s.withInput bytes) hrun hservice htop⟩
    · obtain ⟨hgetc, hin, hreads⟩ := hunread.resolve_left htop
      obtain ⟨t, h⟩ := exists_exec_eq_next (decode (s.mem.read s.pc)) (s.setPc (s.pc + 1#16))
      refine ⟨t, (step_fetch_of_ne_kbsrAddr hrun hservice htop hkbsr).trans h, fun bytes => ?_⟩
      exact (step_fetch_of_ne_kbsrAddr (s := s.withInput bytes) hrun hservice htop hkbsr).trans
        (exec_withInput (decode_wellFormed _) hgetc hin hreads h bytes)

/-- Settles O20: the step commutes with the exchange of `kbd_in`; the exchange with the same input shows it kept. -/
theorem unreadInputIsNotObserved : Obligations.UnreadInputIsNotObserved := by
  unfold Obligations.UnreadInputIsNotObserved
  intro s other hrun hunread
  obtain ⟨t, h, hother⟩ := step_withInput hrun hunread
  have hsame : t = t.withInput s.kbdIn := Host.Outcome.next.inj (h.symm.trans (hother s.kbdIn))
  exact ⟨t, h, (congrArg State.kbdIn hsame).trans (t.withInput_kbdIn _), hother other⟩

end Sys2Proof.Machine
end
